-- ==== Sys2Proof/Word.lean ====
section
/-! DEFINITION. The two word types of the hardware (spec/00_scope.md R2, R5): every value is an unsigned bit
pattern, and addition wraps modulo the width. -/

namespace Sys2Proof

/-- A register value, an instruction word or a presented address: 16 bits, unsigned (R2, R5). -/
abbrev Word := BitVec 16

/-- A memory cell, an operator byte, a literal or a signal code: 8 bits, unsigned (R2, R5). -/
abbrev Byte := BitVec 8

end Sys2Proof
end

