-- ==== Sys2Proof/Syntax.lean ====
section
/-! DEFINITION. The instruction set as syntax: the closed Register enumeration (spec/10_state.md R11), the six Op
variants (spec/30_encoding.md R53, R54), one constructor for each row of spec/opcode_table.json, and the two decode
errors (R54). -/

namespace Sys2Proof

/-- The eight registers, in the order of their ordinals 0 to 7 (R11). -/
inductive Register where
  | a | b | c | m | sp | pc | bp | flags
deriving DecidableEq, Repr

/-- An Op: a tag with its payload (R54). The constructors are named after the mnemonics of R68; the register
operands are validated Registers, never raw fields. -/
inductive Instr where
  /-- `NOP`, Op `Nop` (R85). -/
  | nop
  /-- `PUSH imm8`, Op `Push(literal)` (R86). -/
  | push (literal : Byte)
  /-- `POP reg`, Op `PopRegister(target)` (R87 to R89). -/
  | pop (target : Register)
  /-- `ADDS`, Op `AddStack` (R90). -/
  | adds
  /-- `ADDR dst, src`, Op `AddRegister(dst, src)`: it has a meaning (R91) and no encoding (R92; DESIGN CHOICE,
  assumption log 14). -/
  | addr (dst src : Register)
  /-- `SIG imm8`, Op `Signal(code)` (R93). -/
  | sig (code : Byte)
deriving DecidableEq, Repr

/-- The decoder's two errors, each with the offending value (R54). -/
inductive DecodeError where
  /-- The operator byte names no decodable Op (R61). -/
  | unknownOperator (op : Byte)
  /-- The 4-bit register field of a `POP` word is 8 to 15 (R62). -/
  | unknownRegister (field : BitVec 4)
deriving DecidableEq, Repr

end Sys2Proof
end

