-- ==== Sys2Proof/WellFormed.lean ====
section
/-! DEFINITION. Which instructions a program can hold. Every payload is valid by its type (spec/30_encoding.md R54);
the one check left is that the Op has an encoding, which `AddRegister` has not (R65, spec/43_register_add.md R92). -/

namespace Sys2Proof

/-- The Op has an encoding, so that it can stand in memory and be fetched: every Op but `AddRegister` (R65, R92). -/
def Instr.wellFormed : Instr → Bool
  | .nop => true
  | .push _ => true
  | .pop _ => true
  | .adds => true
  | .addr _ _ => false
  | .sig _ => true

end Sys2Proof
end

