-- ==== Sys2Proof/Decode.lean ====
section
/-! DEFINITION. The decoder, total on all 65536 words (spec/30_encoding.md R55), the byte order of a word
(spec/20_memory.md R36), and the encoder that writes the canonical words (R65). -/

namespace Sys2Proof

/-- `v[7:0]`: of a stored word, the byte at the lower address; of an instruction, the operator byte (R36, R51). -/
def wordLo (v : Word) : Byte := v.extractLsb' 0 8

/-- `v[15:8]`: of a stored word, the byte at the higher address; of an instruction, the operand byte (R36, R51). -/
def wordHi (v : Word) : Byte := v.extractLsb' 8 8

/-- `w[11:8]`: the register field of a `POP` word (R51). -/
def wordReg (w : Word) : BitVec 4 := w.extractLsb' 8 4

/-- The 16-bit value of two bytes in address order, little-endian (R36; DEDUCED, assumption log 15). -/
def wordOfBytes (lo hi : Byte) : Word := hi ++ lo

/-- A Register's ordinal as the 4-bit operand field (R11). -/
def Register.field : Register → BitVec 4
  | .a => 0
  | .b => 1
  | .c => 2
  | .m => 3
  | .sp => 4
  | .pc => 5
  | .bp => 6
  | .flags => 7

/-- The Register a 4-bit field names; none for 8 to 15, never a silent default (R11, R62). -/
def Register.ofField (f : BitVec 4) : Option Register :=
  match f.toNat with
  | 0 => some .a
  | 1 => some .b
  | 2 => some .c
  | 3 => some .m
  | 4 => some .sp
  | 5 => some .pc
  | 6 => some .bp
  | 7 => some .flags
  | _ => none

/-- `PopRegister`'s operand: the validated register field, or the decode error that carries it (R58, R62). -/
def decodePop (w : Word) : Except DecodeError Instr :=
  match Register.ofField (wordReg w) with
  | some r => .ok (.pop r)
  | none => .error (.unknownRegister (wordReg w))

/-- The decoder (R55): it reads the operator byte and the operand bits its rule names, and no other bit (R63, decision
D9; DESIGN CHOICE, assumption log 13). -/
def decode (w : Word) : Except DecodeError Instr :=
  if wordLo w = 0x00 then .ok .nop
  else if wordLo w = 0x01 then .ok (.push (wordHi w))
  else if wordLo w = 0x02 then decodePop w
  else if wordLo w = 0x03 then .ok .adds
  else if wordLo w = 0x05 then .ok (.sig (wordHi w))
  else .error (.unknownOperator (wordLo w))

/-- The decoder on an instruction's two bytes in address order (R50). -/
def decodeBytes (lo hi : Byte) : Except DecodeError Instr := decode (wordOfBytes lo hi)

/-- The canonical word of an Op: operator byte low, operand high, every bit the decoder ignores 0 (R65).
`AddRegister` has no operand layout, so it has no word. -/
def encode : Instr → Option Word
  | .nop => some 0x0000
  | .push l => some (wordOfBytes 0x01 l)
  | .pop r => some (wordOfBytes 0x02 (r.field.setWidth 8))
  | .adds => some 0x0003
  | .addr _ _ => none
  | .sig c => some (wordOfBytes 0x05 c)

/-- The first byte of an instruction given as the number `w`, of which the table covers `nbits` bits. -/
def tableByteLo (nbits w : Nat) : Byte := BitVec.ofNat 8 (w % 2 ^ nbits)

/-- The second byte of the same instruction; bits from `nbits` on are 0. -/
def tableByteHi (nbits w : Nat) : Byte := BitVec.ofNat 8 (w % 2 ^ nbits / 256)

/-- What the decoder reads from the instruction whose bits are `w`, numbered as spec/opcode_table.json numbers
them: its bytes laid out in memory order, then decoded. -/
def decodeTableWord (nbits w : Nat) : Option Instr :=
  (decodeBytes (tableByteLo nbits w) (tableByteHi nbits w)).toOption

end Sys2Proof
end

