-- ==== Sys2Proof/Config.lean ====
section
/-! DEFINITION. What an implementation or its host fixes (spec/00_scope.md R2, R3). The behaviour of a host-supplied
signal handler is the one free value of this hardware; it needs the type of states, so its opaque constant
`Sys2Proof.Config.hostHandler` is declared in Machine/State.lean, right after `State`. -/

namespace Sys2Proof.Config

/-- MEM_SIZE of a Machine built without choosing one: 8192 bytes (R3, R30). -/
def defaultMemSize : Nat := 8192

/-- The largest MEM_SIZE: 65536, all that a 16-bit address reaches (R3, decision D8). -/
def maxMemSize : Nat := 65536

/-- What an in-range byte reads as when nothing has been written or loaded there: 0x00, the spec's decision D7
(R26, R120; DESIGN CHOICE, assumption log 3). -/
def resetByte : Byte := 0x00

/-- Where the host loads the program image: address 0 (R2, R42). -/
def imageBase : Nat := 0

/-- The signal code the host's halt handler is registered at, by the host's convention only (R98). -/
def haltCode : Byte := 0xF0

end Sys2Proof.Config
end

