-- ==== Sys2Proof/Machine/State.lean ====
section
/-! DEFINITION. The whole architectural state of one Machine (spec/10_state.md R10): register file, memory, signal
table, halt flag; with the model's own counter of host-handler calls; the eight faults (spec/60_exceptions.md R100);
and the state after reset (R26). Everything here is plain data. -/

namespace Sys2Proof.Machine

/-- The register file: eight 16-bit cells, none hard-wired, none shared (R11, R13). -/
structure Registers where
  /-- Ordinal 0, general purpose (R19). -/
  a : Word
  /-- Ordinal 1, general purpose (R19). -/
  b : Word
  /-- Ordinal 2, general purpose (R19). -/
  c : Word
  /-- Ordinal 3, general purpose (R19). -/
  m : Word
  /-- Ordinal 4, the stack pointer: the next free cell of an ascending stack (R16). -/
  sp : Word
  /-- Ordinal 5, the program counter: the address of the next fetch (R14). -/
  pc : Word
  /-- Ordinal 6, no function of its own (R17). -/
  bp : Word
  /-- Ordinal 7, sixteen plain bits, no flag among them (R18). -/
  flags : Word
deriving DecidableEq, Repr

/-- The memory: `size` bytes at addresses 0 to `size - 1` (R22, R30). `cells` lists the bytes that differ from
`Config.resetByte`, addresses rising; every other in-range byte reads as `Config.resetByte`. -/
structure Memory where
  /-- MEM_SIZE, fixed at construction (R3, R22). -/
  size : Nat
  /-- The listed bytes, in the canonical form of `Memory.wf`. -/
  cells : List Host.Cell
deriving DecidableEq, Repr

mutual

/-- A signal handler as plain data (spec/44_signal.md R94). The spec leaves the body to the host. -/
inductive Handler where
  /-- A handler whose body is written out, for example the halt handler of R98 (DESIGN CHOICE, assumption log 4). -/
  | script (body : Script)
  /-- The host's handler number `id`: an arbitrary state transformer, the free value `Config.hostHandler`. -/
  | host (id : Nat)
deriving DecidableEq, Repr

/-- What a handler does to the Machine it is handed, call by call, ending in its result (R94).
Some list of these calls turns the Machine into any other with the same MEM_SIZE, which never changes (R22; DEDUCED,
assumption log 7): a handler is an arbitrary transformer (decision D15). -/
inductive Script where
  /-- Return `Ok`. -/
  | ok
  /-- Return `Err(msg)` (R96). -/
  | fail (msg : String)
  /-- `x[r] <- v`. -/
  | setReg (r : Register) (v : Word) (rest : Script)
  /-- `x[dst] <- x[src]`. -/
  | copyReg (dst src : Register) (rest : Script)
  /-- `x[r] <- x[r] +16 v`. -/
  | addReg (r : Register) (v : Word) (rest : Script)
  /-- `write1(addr, v)`; out of range it changes nothing (R32). -/
  | write1 (addr : Nat) (v : Byte) (rest : Script)
  /-- `halt <- b` (R20; DEDUCED, assumption log 6). -/
  | setHalt (b : Bool) (rest : Script)
  /-- `define_handler(code, h)` (R95, decision D21). -/
  | define (code : Byte) (h : Handler) (rest : Script)
  /-- The signal table loses its entry for the code: a handler transforms the whole Machine, the table included (R94,
  decisions D15, D21; DEDUCED, assumption log 7). -/
  | drop (code : Byte) (rest : Script)
  /-- Go on with `yes` if `x[r] = 0`, else with `no`. -/
  | ifZero (r : Register) (yes no : Script)
deriving DecidableEq, Repr, Inhabited

end

/-- One Machine (R10). -/
structure State where
  /-- `x`, the register file (R11). -/
  regs : Registers
  /-- `mem`, the memory (R22). -/
  mem : Memory
  /-- `sig`, the signal table: the registered codes with their handlers, codes rising (R21). -/
  sig : List (Nat × Handler)
  /-- `halt`, the halt flag (R20). -/
  halt : Bool
  /-- The MODEL's own field, no state of the spec: how many calls of `Handler.host` handlers have begun. It makes
  every such call a fresh free value, for the host's own hidden state of R94 (DESIGN CHOICE, assumption log 5). -/
  hostCalls : Nat
deriving DecidableEq, Repr

/-- The eight ways a step fails (R100, numbers by `Fault.code`). Each constructor carries the payload R100 gives it
and, last, the state the failed step leaves behind (R111), from which the host may step again (R113). All are safe:
a run ends where the default run loop ends it (R79; DEDUCED, assumption log 9). -/
inductive Fault where
  /-- Raised by the FETCH phase of any step: the word at PC does not lie inside memory (R101). Safe. -/
  | fetchFault (addr : Word) (after : State)
  /-- Raised by the DECODE phase: operator byte 0x04 or 0x06 to 0xFF (R102). Safe. -/
  | unknownOperator (op : Byte) (after : State)
  /-- Raised by the DECODE phase: a `POP` word with register field 8 to 15 (R103). Safe. -/
  | unknownRegister (field : BitVec 4) (after : State)
  /-- Raised by `SIG`: no handler is registered for the code (R104). Safe. -/
  | unknownSignal (code : Byte) (after : State)
  /-- Raised by `PUSH`: the cell at SP does not lie inside memory (R105). Safe. -/
  | stackWriteFault (addr : Word) (after : State)
  /-- Raised by `POP` and by the first pop of `ADDS`: the cell at SP - 2 does not lie inside memory (R106). Safe. -/
  | stackReadFault (addr : Word) (after : State)
  /-- Raised by `POP` and by either pop of `ADDS`: SP is 0 or 1 (R107). Safe. -/
  | stackUnderflow (sp : Word) (after : State)
  /-- Raised by `SIG`: the handler returned `Err(msg)`; what it wrote stays (R108). Safe. -/
  | handlerError (code : Byte) (msg : String) (after : State)
deriving DecidableEq, Repr

/-- Why a step has no meaning. No step of this model answers with a refusal. -/
inductive Refusal where
  /-- Raised only by an arm of `exec` that has no meaning yet; there is none. Safe. -/
  | notModelled (mnemonic : String)
deriving DecidableEq, Repr

/-- The outcome of a step, a meaning or a host loop over this machine. -/
abbrev Outcome := Host.Outcome State Fault Refusal

/-- The machine right after construction with the default MEM_SIZE: every register 0, halt false, no handler
registered, every byte `Config.resetByte` (R26, R120). No program is loaded: that is the host's `load` (R122). -/
def State.reset : State where
  regs := { a := 0, b := 0, c := 0, m := 0, sp := 0, pc := 0, bp := 0, flags := 0 }
  mem := { size := Config.defaultMemSize, cells := [] }
  sig := []
  halt := false
  hostCalls := 0

end Sys2Proof.Machine

namespace Sys2Proof.Config

/-- FREE VALUE (R94, decision D15, U7): what the host's handler number `id` does on the model's `n`-th host call,
handed the Machine `s`. It has no body, so whatever is proved holds for every host (DESIGN CHOICE, assumption log 4). -/
opaque hostHandler : (id n : Nat) → (s : Machine.State) → Machine.Script

end Sys2Proof.Config
end

