-- ==== Sys2Proof/Machine/SortedMap.lean ====
section
/-! DEFINITION. Finite maps as plain data: lists of key and value pairs with strictly rising keys. The memory cells
and the signal table are kept so, and equal maps are then equal lists. -/

namespace Sys2Proof.Machine

/-- The keys rise strictly: sorted, no repeats. -/
abbrev Sorted {α : Type} (l : List (Nat × α)) : Prop := l.Pairwise (fun p q => p.1 < q.1)

/-- The value listed at key `k`. -/
def lookupAt {α : Type} (k : Nat) : List (Nat × α) → Option α
  | [] => none
  | (j, x) :: rest => if k = j then some x else if k < j then none else lookupAt k rest

/-- The list that holds `x` at key `k` and is otherwise `l`. -/
def insertAt {α : Type} (k : Nat) (x : α) : List (Nat × α) → List (Nat × α)
  | [] => [(k, x)]
  | (j, y) :: rest =>
    if k = j then (k, x) :: rest else if k < j then (k, x) :: (j, y) :: rest else (j, y) :: insertAt k x rest

/-- The list that holds nothing at key `k` and is otherwise `l`. -/
def eraseAt {α : Type} (k : Nat) : List (Nat × α) → List (Nat × α)
  | [] => []
  | (j, y) :: rest => if k = j then rest else if k < j then (j, y) :: rest else (j, y) :: eraseAt k rest

end Sys2Proof.Machine
end

