-- ==== Sys2Proof/Machine/Memory.lean ====
section
/-! DEFINITION. The memory controller (spec/20_memory.md): `read1`, `write1`, `read2`, `write2`, `load` over `size`
bytes. Addresses and bounds are natural numbers, so nothing wraps (R38); an operation that fails answers `none` and
raises nothing (R39); alignment plays no part (R37). -/

namespace Sys2Proof.Machine

/-- What the byte at address `a` holds, in range or not: the listed byte, else `Config.resetByte`. -/
def Memory.peek (m : Memory) (a : Nat) : Byte := (lookupAt a m.cells).getD Config.resetByte

/-- The memory with byte `v` at address `a`; the bounds are the caller's to check. Writing the byte that an unlisted
address reads as removes the entry, which keeps the canonical form. -/
def Memory.poke (m : Memory) (a : Nat) (v : Byte) : Memory :=
  { m with cells := if v = Config.resetByte then eraseAt a m.cells else insertAt a v m.cells }

/-- The memory with `bytes` from address `a` on; the bounds are the caller's to check. -/
def Memory.pokes (m : Memory) (a : Nat) : List Byte → Memory
  | [] => m
  | v :: rest => (m.poke a v).pokes (a + 1) rest

/-- `read1(a)` (R31). -/
def Memory.read1 (m : Memory) (a : Nat) : Option Byte :=
  if a < m.size then some (m.peek a) else none

/-- `write1(a, v)` (R32). -/
def Memory.write1 (m : Memory) (a : Nat) (v : Byte) : Option Memory :=
  if a < m.size then some (m.poke a v) else none

/-- `read2(a)`: the bytes at `a` and `a + 1`, little-endian; it fails within one byte of the end (R33, R36, R38). -/
def Memory.read2 (m : Memory) (a : Nat) : Option Word :=
  if a + 1 < m.size then some (wordOfBytes (m.peek a) (m.peek (a + 1))) else none

/-- `write2(a, v)`: both bytes or, where it fails, neither (R34, R36, R38, decision D6; DESIGN CHOICE,
assumption log 12). -/
def Memory.write2 (m : Memory) (a : Nat) (v : Word) : Option Memory :=
  if a + 1 < m.size then some ((m.poke a (wordLo v)).poke (a + 1) (wordHi v)) else none

/-- `load(bytes, at)`, the host's bulk initialization: all of the bytes or none (R35, decision D17;
DESIGN CHOICE, assumption log 12). -/
def Memory.load (m : Memory) (bytes : List Byte) (a : Nat) : Option Memory :=
  if a + bytes.length ≤ m.size then some (m.pokes a bytes) else none

/-- The canonical form: a size the hardware allows (R3), addresses strictly rising and inside memory, and no listed
byte equal to what an unlisted address reads as. -/
abbrev Memory.wf (m : Memory) : Prop :=
  m.size ≤ Config.maxMemSize ∧ Sorted m.cells ∧ ∀ c ∈ m.cells, c.1 < m.size ∧ c.2 ≠ Config.resetByte

end Sys2Proof.Machine
end

