-- ==== Sys2Proof/Machine/Operands.lean ====
section
/-! DEFINITION. The operand forms (spec/30_encoding.md R66) and the one arithmetic operation on operands
(spec/00_scope.md R5). The third operand form, a validated register, is used as it is. -/

namespace Sys2Proof.Machine

/-- The value of a `PUSH` literal: zero-extended to 16 bits, never sign-extended, scaled or shifted (R5, R66). -/
def literalValue (l : Byte) : Word := l.setWidth 16

/-- The signal-table index of a `SIG` code: the code as it is (R66). -/
def signalIndex (c : Byte) : Nat := c.toNat

/-- `a +16 b`: the sum modulo 65536 (R5). -/
def wrappingAdd (a b : Word) : Word := a + b

/-- `v +16 2`: the advance of PC and the increment of SP; it wraps modulo 65536 (R15, R16, decisions D3, D4;
DESIGN CHOICE, assumption log 11). -/
def nextCell (v : Word) : Word := wrappingAdd v 2

end Sys2Proof.Machine
end

