-- ==== Sys2Proof/Machine/Ops.lean ====
section
/-! DEFINITION. The shared operations: the register file's `get` and `set` (spec/10_state.md R12), the signal table
(R21), raising a fault and what follows it (spec/60_exceptions.md R111, R113), and the micro-operations of a step:
fetch, advance, `Push16`, `Pop16` (spec/40_step_cycle.md R71, R72, R75, R76). -/

namespace Sys2Proof.Machine

/-- `x[r]` (R12). -/
def State.get (s : State) : Register → Word
  | .a => s.regs.a
  | .b => s.regs.b
  | .c => s.regs.c
  | .m => s.regs.m
  | .sp => s.regs.sp
  | .pc => s.regs.pc
  | .bp => s.regs.bp
  | .flags => s.regs.flags

/-- `x[r] <- v`: that cell and no other (R12). -/
def State.set (s : State) (r : Register) (v : Word) : State :=
  match r with
  | .a => { s with regs := { s.regs with a := v } }
  | .b => { s with regs := { s.regs with b := v } }
  | .c => { s with regs := { s.regs with c := v } }
  | .m => { s with regs := { s.regs with m := v } }
  | .sp => { s with regs := { s.regs with sp := v } }
  | .pc => { s with regs := { s.regs with pc := v } }
  | .bp => { s with regs := { s.regs with bp := v } }
  | .flags => { s with regs := { s.regs with flags := v } }

/-- The state with another memory. -/
def State.withMem (s : State) (m : Memory) : State := { s with mem := m }

/-- `halt <- b` (R20). -/
def State.withHalt (s : State) (b : Bool) : State := { s with halt := b }

/-- The state with another signal table. -/
def State.withSig (s : State) (t : List (Nat × Handler)) : State := { s with sig := t }

/-- The model's own counter moves on: one more call of a host handler has begun (DESIGN CHOICE, assumption log 5). -/
def State.countHostCall (s : State) : State := { s with hostCalls := s.hostCalls + 1 }

/-- `sig[c]`: the handler registered for the code, or absent (R21). -/
def State.handler (s : State) (c : Byte) : Option Handler := lookupAt (signalIndex c) s.sig

/-- `define_handler(c, h)`: registers or overwrites; the last registration wins (spec/44_signal.md R95). -/
def State.defineHandler (s : State) (c : Byte) (h : Handler) : State :=
  s.withSig (insertAt (signalIndex c) h s.sig)

/-- The signal table without an entry for the code. Only a handler, which is handed the whole Machine, does this (R94,
decision D21); the host has no such operation (R95; DEDUCED, assumption log 7). -/
def State.dropHandler (s : State) (c : Byte) : State := s.withSig (eraseAt (signalIndex c) s.sig)

/-- The signal table's canonical form: codes strictly rising, each an 8-bit code (R21). -/
abbrev tableWf (t : List (Nat × Handler)) : Prop := Sorted t ∧ ∀ e ∈ t, e.1 < 256

/-- `raise F(info)`: the step ends with that fault, and the state stays as it was at the raise: nothing is saved
anywhere, no mode changes, no control transfer, no rollback (R111). -/
def raise {α : Type} (f : State → Fault) (s : State) : Except Fault α := .error (f s)

/-- The state a failed step leaves (R111). There is no return instruction: a host that steps again steps from this
state (R113). -/
def Fault.after : Fault → State
  | .fetchFault _ t => t
  | .unknownOperator _ t => t
  | .unknownRegister _ t => t
  | .unknownSignal _ t => t
  | .stackWriteFault _ t => t
  | .stackReadFault _ t => t
  | .stackUnderflow _ t => t
  | .handlerError _ _ t => t

/-- The fault's number, 1 to 8; 0 stands for `Ok` (R100, decision D11). -/
def Fault.code : Fault → Nat
  | .fetchFault _ _ => 1
  | .unknownOperator _ _ => 2
  | .unknownRegister _ _ => 3
  | .unknownSignal _ _ => 4
  | .stackWriteFault _ _ => 5
  | .stackReadFault _ _ => 6
  | .stackUnderflow _ _ => 7
  | .handlerError _ _ _ => 8

/-- A meaning's result as a step's outcome: `Ok` with the new state, or the fault (R70). -/
def finish : Except Fault State → Outcome
  | .ok s => .next s
  | .error f => .fault f

/-- FETCH: the word at PC, or `FetchFault` with that address and nothing changed (R71, R101). -/
def fetch (s : State) : Except Fault Word :=
  match s.mem.read2 (s.get .pc).toNat with
  | some w => .ok w
  | none => raise (.fetchFault (s.get .pc)) s

/-- ADVANCE: PC moves to the next word, before decoding and whatever the word is (R72). -/
def advance (s : State) : State := s.set .pc (nextCell (s.get .pc))

/-- DECODE: the Op, or the decode error raised as a fault (R73, R102, R103). -/
def decodePhase (w : Word) (s : State) : Except Fault Instr :=
  match decode w with
  | .ok i => .ok i
  | .error (.unknownOperator b) => raise (.unknownOperator b) s
  | .error (.unknownRegister f) => raise (.unknownRegister f) s

/-- `Push16(v)`: store at SP, then SP + 2; where the store fails, SP and memory stay (R75, R105). -/
def push16 (v : Word) (s : State) : Except Fault State :=
  match s.mem.write2 (s.get .sp).toNat v with
  | some m => .ok ((s.withMem m).set .sp (nextCell (s.get .sp)))
  | none => raise (.stackWriteFault (s.get .sp)) s

/-- `Pop16()`: the underflow test, then the read at SP - 2, then SP - 2; where either fails, SP stays (R76, R106,
R107). Memory keeps the popped cell (DEDUCED, assumption log 16). -/
def pop16 (s : State) : Except Fault (Word × State) :=
  if (s.get .sp).toNat < 2 then raise (.stackUnderflow (s.get .sp)) s
  else
    match s.mem.read2 (s.get .sp - 2).toNat with
    | some v => .ok (v, s.set .sp (s.get .sp - 2))
    | none => raise (.stackReadFault (s.get .sp - 2)) s

end Sys2Proof.Machine
end

