-- ==== Sys2Proof/Machine/Nop.lean ====
section
/-! DEFINITION. Instruction family 1, `NOP` (spec/41_nop.md). Every meaning is the EXECUTE phase: it is handed the
state after FETCH, ADVANCE and DECODE, so PC already holds the address of the next instruction. -/

namespace Sys2Proof.Machine

/-- `NOP`: no effect beyond the advance (R85). -/
def execNop (s : State) : Outcome := .next s

end Sys2Proof.Machine
end

