-- ==== Sys2Proof/Machine/Flags.lean ====
section
/-! DEFINITION. The flag computations: the spec gives none. FLAGS has no defined bit, no instruction sets it as a side
effect and none reads it (spec/10_state.md R18). -/

namespace Sys2Proof.Machine

/-- What a wrapping addition of `a` and `b` records besides its sum: nothing, no carry, overflow, zero or sign (R18,
spec/42_stack.md R90, spec/43_register_add.md R91; DEDUCED, assumption log 21). -/
def recordSum (_a _b : Word) (s : State) : State := s

end Sys2Proof.Machine
end

