-- ==== Sys2Proof/Machine/RegisterAdd.lean ====
section
/-! DEFINITION. Instruction family 3, `ADDR` (spec/43_register_add.md). No word decodes to it (R92); this is what the
EXECUTE phase does when it is handed the Op. -/

namespace Sys2Proof.Machine

/-- `ADDR dst, src`: both registers are read, then `dst` takes their wrapping sum (R91). -/
def execAddr (dst src : Register) (s : State) : Outcome :=
  .next ((recordSum (s.get dst) (s.get src) s).set dst (wrappingAdd (s.get dst) (s.get src)))

end Sys2Proof.Machine
end

