-- ==== Sys2Proof/Machine/Signal.lean ====
section
/-! DEFINITION. Instruction family 4, `SIG`, and the running of a handler (spec/44_signal.md). A handler receives the
whole Machine, may change registers, memory, signal table and halt flag, and returns `Ok` or `Err(msg)` (R94). -/

namespace Sys2Proof.Machine

/-- A handler body run to its end: the Machine it leaves, with the message if it returned `Err`. -/
def runScript : Script → State → State × Option String
  | .ok, s => (s, none)
  | .fail msg, s => (s, some msg)
  | .setReg r v rest, s => runScript rest (s.set r v)
  | .copyReg dst src rest, s => runScript rest (s.set dst (s.get src))
  | .addReg r v rest, s => runScript rest (s.set r (wrappingAdd (s.get r) v))
  | .write1 a v rest, s => runScript rest (s.withMem ((s.mem.write1 a v).getD s.mem))
  | .setHalt b rest, s => runScript rest (s.withHalt b)
  | .define c h rest, s => runScript rest (s.defineHandler c h)
  | .drop c rest, s => runScript rest (s.dropHandler c)
  | .ifZero r yes no, s => if s.get r = 0 then runScript yes s else runScript no s

/-- A handler's call. The host's own handler is a free value of the Machine it is handed and of how many such calls
went before (R94, decision D15; DESIGN CHOICE, assumption log 4, 5, 8). -/
def callHandler : Handler → State → State × Option String
  | .script body, s => runScript body s
  | .host id, s => runScript (Config.hostHandler id s.hostCalls s) s.countHostCall

/-- A handler's result as the step's: `Ok`, or `HandlerError` with everything the handler wrote kept (R96, R108). -/
def signalResult (c : Byte) : State × Option String → Outcome
  | (t, none) => .next t
  | (t, some msg) => .fault (.handlerError c msg t)

/-- `SIG imm8`: the table is looked up as it is now; an absent handler is `UnknownSignal`, with nothing written (R93,
R104). -/
def execSig (c : Byte) (s : State) : Outcome :=
  match s.handler c with
  | none => .fault (.unknownSignal c s)
  | some h => signalResult c (callHandler h s)

/-- The host's halt handler: `halt <- true; return Ok`, nothing else (R98). -/
def haltHandler : Handler := .script (.setHalt true .ok)

end Sys2Proof.Machine
end

