-- ==== Sys2Proof/Machine/Stack.lean ====
section
/-! DEFINITION. Instruction family 2, the stack instructions `PUSH`, `POP`, `ADDS` (spec/42_stack.md). -/

namespace Sys2Proof.Machine

/-- `PUSH imm8`: push the zero-extended literal (R86). -/
def execPush (l : Byte) (s : State) : Outcome := finish (push16 (literalValue l) s)

/-- `POP reg`: pop, then write the register, so that a target SP or PC keeps the popped value (R87, R88, R89). -/
def execPop (r : Register) (s : State) : Outcome :=
  match pop16 s with
  | .error f => .fault f
  | .ok (v, t) => .next (t.set r v)

/-- `ADDS`: pop `a`, pop `b`, push their wrapping sum. Where the second pop fails, SP keeps the first (R90). -/
def execAdds (s : State) : Outcome :=
  match pop16 s with
  | .error f => .fault f
  | .ok (a, s₁) =>
    match pop16 s₁ with
    | .error f => .fault f
    | .ok (b, s₂) => finish (push16 (wrappingAdd a b) (recordSum a b s₂))

end Sys2Proof.Machine
end

