-- ==== Sys2Proof/Machine/Dispatch.lean ====
section
/-! DEFINITION. EXECUTE: the Op selects one rule, without a default arm (spec/40_step_cycle.md R74). -/

namespace Sys2Proof.Machine

def exec (i : Instr) (s : State) : Host.Outcome State Fault Refusal :=
  match i with
  | .nop => Sys2Proof.Machine.execNop s
  | .push l => Sys2Proof.Machine.execPush l s
  | .pop r => Sys2Proof.Machine.execPop r s
  | .adds => Sys2Proof.Machine.execAdds s
  | .addr dst src => Sys2Proof.Machine.execAddr dst src s
  | .sig c => Sys2Proof.Machine.execSig c s

end Sys2Proof.Machine
end

