-- ==== Sys2Proof/Machine/Step.lean ====
section
/-! DEFINITION. One `step`: FETCH, ADVANCE, DECODE, EXECUTE, each complete before the next (spec/40_step_cycle.md R70).
It reads nothing else; in particular it does not test the halt flag (R78). -/

namespace Sys2Proof.Machine

/-- One step of the machine (R70). A phase that raises ends the step, and what earlier phases wrote stays (R77). -/
def step (s : State) : Host.Outcome State Fault Refusal :=
  match fetch s with
  | .error f => .fault f
  | .ok w =>
    match decodePhase w (advance s) with
    | .error f => .fault f
    | .ok i => exec i (advance s)

/-- The instruction whose bits are `w` stored where the next step fetches: its two bytes at PC and PC + 1. Memory is
left as it is where those bytes do not exist. From reset it stands for the host's `load(image, 0)` (R122; DEDUCED,
assumption log 1). -/
def State.withFetchWord (s : State) (nbits w : Nat) : State :=
  s.withMem ((s.mem.load [tableByteLo nbits w, tableByteHi nbits w] (s.get .pc).toNat).getD s.mem)

end Sys2Proof.Machine
end

