-- ==== Sys2Proof/Machine/HostOps.lean ====
section
/-! DEFINITION. What the host does to a Machine between steps (spec/10_state.md R25): construct it, load an image,
register handlers (`State.defineHandler`), step, observe (`State.get`, `Memory.read1`, the halt flag), stop; the boot
sequence (spec/70_reset_and_hazards.md R122) and the run loop (spec/40_step_cycle.md R79). -/

namespace Sys2Proof.Machine

/-- A Machine freshly constructed with MEM_SIZE `n`, any number up to 65536 (R120, decision D8). -/
def construct (n : Nat) : State := State.reset.withMem { size := n, cells := [] }

/-- The host's `load(bytes, at)` on a Machine; where it fails nothing is written (R35). -/
def State.load (s : State) (bytes : List Byte) (a : Nat) : Option State :=
  (s.mem.load bytes a).map s.withMem

/-- The host registers handlers, in the order listed (R95). -/
def State.defineHandlers (s : State) : List (Byte × Handler) → State
  | [] => s
  | (c, h) :: rest => (s.defineHandler c h).defineHandlers rest

/-- The boot sequence: construct, load the image at address 0, register the handlers; none where the image does not
fit (R122). -/
def boot (n : Nat) (image : List Byte) (handlers : List (Byte × Handler)) : Option State :=
  ((construct n).load image Config.imageBase).map (fun s => s.defineHandlers handlers)

/-- The halt profile: the host has registered the halt handler at 0xF0 (R98). -/
def State.withHaltProfile (s : State) : State := s.defineHandler Config.haltCode haltHandler

/-- How a bounded run of the default loop ends (R79, R81). -/
inductive RunEnd where
  /-- The halt flag was set when the loop tested it. -/
  | halted (s : State)
  /-- A step failed: the first failure ends the run. -/
  | aborted (f : Fault)
  /-- A step had no meaning; no step of this model does this. -/
  | refused (r : Refusal)
  /-- The host's bound on the number of steps was reached (R133). -/
  | outOfFuel (s : State)
deriving DecidableEq, Repr

/-- The default run loop under a bound: test `halt` before each step, the first included; end at the first failed
step (R79, decision D14). -/
def runLoop : Nat → State → RunEnd
  | 0, s => if s.halt then .halted s else .outOfFuel s
  | fuel + 1, s =>
    if s.halt then .halted s
    else
      match step s with
      | .next t => runLoop fuel t
      | .fault f => .aborted f
      | .refused r => .refused r

/-- The state after a step that a host makes without looking at its result: the new state, or the one the failed step
left (R113). -/
def stepAnyway (s : State) : State :=
  match step s with
  | .next t => t
  | .fault f => f.after
  | .refused _ => s

end Sys2Proof.Machine
end

