-- ==== Sys2Proof/Safety.lean ====
section
/-! DEFINITION. The terms claims are made in: well-formed states, the state an outcome leaves, outcomes compared up to
a change of state, and the two-byte cells a store writes. -/

namespace Sys2Proof.Machine

/-- A well-formed state: memory and signal table in canonical form, MEM_SIZE at most 65536. -/
abbrev State.wf (s : State) : Prop := s.mem.wf ∧ tableWf s.sig

/-- The state an outcome leaves the Machine in, after `Ok` and after a fault alike (spec/60_exceptions.md R111). -/
def stateOf : Outcome → Option State
  | .next t => some t
  | .fault f => some f.after
  | .refused _ => none

/-- The fault with its after-state changed by `g`, the payload kept. -/
def Fault.mapAfter (g : State → State) : Fault → Fault
  | .fetchFault a t => .fetchFault a (g t)
  | .unknownOperator b t => .unknownOperator b (g t)
  | .unknownRegister f t => .unknownRegister f (g t)
  | .unknownSignal c t => .unknownSignal c (g t)
  | .stackWriteFault a t => .stackWriteFault a (g t)
  | .stackReadFault a t => .stackReadFault a (g t)
  | .stackUnderflow v t => .stackUnderflow v (g t)
  | .handlerError c msg t => .handlerError c msg (g t)

/-- The outcome with its state changed by `g`, kind and payload kept. -/
def mapState (g : State → State) : Outcome → Outcome
  | .next t => .next (g t)
  | .fault f => .fault (f.mapAfter g)
  | .refused r => .refused r

/-- The word at PC, if both of its bytes are in memory, is `w` (spec/40_step_cycle.md R71). -/
abbrev State.fetches (s : State) (w : Word) : Prop := s.mem.read2 (s.get .pc).toNat = some w

/-- The field `op` of an instruction word: bits 7:0 (spec/30_encoding.md R51). -/
abbrev opField (w : Word) : Byte := w.extractLsb' 0 8

/-- The field `arg`: bits 15:8 (R51). -/
abbrev argField (w : Word) : Byte := w.extractLsb' 8 8

/-- The field `reg`: bits 11:8 (R51). -/
abbrev regField (w : Word) : BitVec 4 := w.extractLsb' 8 4

/-- The field `pad`: bits 15:12 (R51). -/
abbrev padField (w : Word) : BitVec 4 := w.extractLsb' 12 4

/-- The state whose PC is 2 more, modulo 65536, and which is otherwise `s` (spec/40_step_cycle.md R72). -/
abbrev State.advanced (s : State) : State := s.set .pc (s.get .pc + 2)

/-- Address `a` lies in the 2-byte cell that starts at `base`. -/
abbrev inCell (base : Word) (a : Nat) : Prop := a = base.toNat ∨ a = base.toNat + 1

end Sys2Proof.Machine
end

