-- ==== Sys2Proof/Certificates/Slice0/Obligations.lean ====
section
/-! DEFINITION. The statements for the provers, read off the rules of spec/. A statement about an instruction's meaning
is about the EXECUTE phase, which is handed the state after the advance of PC; a statement about `step` is about the
whole step. -/

open Sys2Proof Sys2Proof.Machine

/-! ## State, reset, register file -/

/-- R26, R120: what construction leaves, for every MEM_SIZE. That memory reads as zero is the spec's decision D7. -/
def Obligations.ConstructionLeavesResetValues : Prop :=
  State.reset = construct 8192 ∧
  ∀ n : Nat,
    (∀ r, (construct n).get r = 0) ∧ (construct n).halt = false ∧ (∀ c, (construct n).handler c = none) ∧
    (construct n).mem.size = n ∧ ∀ a < n, (construct n).mem.read1 a = some 0x00

/-- R12: `get` returns the last value set, `set` changes that cell and nothing else. -/
def Obligations.RegisterWriteChangesOneCell : Prop :=
  ∀ (s : State) (r : Register) (v : Word),
    (s.set r v).get r = v ∧ (∀ q, q ≠ r → (s.set r v).get q = s.get q) ∧
    (s.set r v).mem = s.mem ∧ (s.set r v).sig = s.sig ∧ (s.set r v).halt = s.halt ∧
    (s.set r v).hostCalls = s.hostCalls

/-! ## Memory controller -/

/-- R31, and what the reads of R30 see of it: `read1` answers exactly below the memory size. -/
def Obligations.ByteReadSucceedsExactlyInRange : Prop :=
  ∀ (m : Memory) (a : Nat), m.read1 a = if a < m.size then some (m.peek a) else none

/-- R32. -/
def Obligations.ByteWriteChangesOneByte : Prop :=
  ∀ (m : Memory) (a : Nat) (v : Byte), m.wf →
    (a < m.size → ∃ m', m.write1 a v = some m' ∧ m'.size = m.size ∧ m'.read1 a = some v ∧
      ∀ b, b ≠ a → m'.read1 b = m.read1 b) ∧
    (m.size ≤ a → m.write1 a v = none)

/-- R33: little-endian, any address, both bytes in range. -/
def Obligations.HalfwordReadIsTwoBytes : Prop :=
  ∀ (m : Memory) (a : Nat) (v : Word),
    m.read2 a = some v ↔ a + 1 < m.size ∧ ∃ lo hi, m.read1 a = some lo ∧ m.read1 (a + 1) = some hi ∧
      v.toNat = lo.toNat + 256 * hi.toNat

/-- R34, R36, R38 (decisions D1, D5, D6): both bytes, low byte first, or none. -/
def Obligations.HalfwordWriteIsAllOrNothing : Prop :=
  ∀ (m : Memory) (a : Nat) (v : Word), m.wf →
    (a + 1 < m.size → ∃ m', m.write2 a v = some m' ∧ m'.size = m.size ∧
      m'.read1 a = some (v.extractLsb' 0 8) ∧ m'.read1 (a + 1) = some (v.extractLsb' 8 8) ∧
      m'.read2 a = some v ∧ ∀ b, b ≠ a → b ≠ a + 1 → m'.read1 b = m.read1 b) ∧
    (m.size ≤ a + 1 → m.write2 a v = none)

/-- R48: the 2-byte operations are views of the same bytes. -/
def Obligations.HalfwordAccessesAreByteAccesses : Prop :=
  ∀ (m : Memory) (a : Nat), m.wf →
    (∀ v, m.read2 a = some v → ∃ lo hi, m.read1 a = some lo ∧ m.read1 (a + 1) = some hi ∧
      v = (lo.setWidth 16) ||| (hi.setWidth 16 <<< 8)) ∧
    (∀ v m', m.write2 a v = some m' →
      (m.write1 a (v.extractLsb' 0 8)).bind (fun m₁ => m₁.write1 (a + 1) (v.extractLsb' 8 8)) = some m' ∧
      ∀ u, m'.read2 (a + 1) = some u → u.extractLsb' 0 8 = v.extractLsb' 8 8)

/-- R35 (decision D17): the whole sequence or none of it. -/
def Obligations.LoadIsAllOrNothing : Prop :=
  ∀ (m : Memory) (bytes : List Byte) (a : Nat), m.wf →
    (a + bytes.length ≤ m.size → ∃ m', m.load bytes a = some m' ∧ m'.size = m.size ∧
      (∀ i, ∀ h : i < bytes.length, m'.read1 (a + i) = some bytes[i]) ∧
      ∀ b, b < a ∨ a + bytes.length ≤ b → m'.read1 b = m.read1 b) ∧
    (m.size < a + bytes.length → m.load bytes a = none)

/-! ## Decoder and encoder -/

/-- R56 to R60, with the ordinals of R11: each decodable operator byte, whatever the bits its rule does not name. -/
def Obligations.OperatorByteSelectsTheInstruction : Prop :=
  ([Register.a, .b, .c, .m, .sp, .pc, .bp, .flags].map Register.field = [0, 1, 2, 3, 4, 5, 6, 7]) ∧
  ∀ w : Word,
    (opField w = 0x00 → decode w = .ok .nop) ∧
    (opField w = 0x01 → decode w = .ok (.push (argField w))) ∧
    (∀ r : Register, opField w = 0x02 → regField w = r.field → decode w = .ok (.pop r)) ∧
    (opField w = 0x02 → 8 ≤ (regField w).toNat → ∃ f, decode w = .error (.unknownRegister f)) ∧
    (opField w = 0x03 → decode w = .ok .adds) ∧
    (opField w = 0x05 → decode w = .ok (.sig (argField w)))

/-- R61, R62 (decisions D10, D11): exactly which words are illegal and what the error carries. -/
def Obligations.IllegalWordsAreRejectedByName : Prop :=
  ∀ w : Word,
    (∀ b, decode w = .error (.unknownOperator b) ↔ opField w = b ∧ (b = 0x04 ∨ 6 ≤ b.toNat)) ∧
    (∀ f, decode w = .error (.unknownRegister f) ↔ opField w = 0x02 ∧ regField w = f ∧ 8 ≤ f.toNat)

/-- R63 (decision D9): the bits the decoder does not examine change nothing. -/
def Obligations.UnexaminedBitsAreIgnored : Prop :=
  ∀ w w' : Word, opField w = opField w' →
    (opField w ≠ 0x01 → opField w ≠ 0x02 → opField w ≠ 0x05 → decode w = decode w') ∧
    (opField w = 0x02 → regField w = regField w' → decode w = decode w')

/-- R92 (decision D10): no word decodes to `ADDR`; every word of operator 0x04 is an unknown operator. -/
def Obligations.NoWordDecodesToAddRegister : Prop :=
  (∀ (w : Word) (i : Instr), decode w = .ok i → i.wellFormed = true ∧ ∀ dst src, i ≠ .addr dst src) ∧
  ∀ w : Word, opField w = 0x04 → decode w = .error (.unknownOperator 0x04)

/-- R65: every well-formed instruction has a canonical word, and that word decodes to it. -/
def Obligations.DecodeOfEncodeIsTheInstruction : Prop :=
  ∀ i : Instr, i.wellFormed = true → ∃ w, encode i = some w ∧ decode w = .ok i

/-- R65: the other direction holds exactly for the words whose unexamined bits are 0. -/
def Obligations.EncodeOfDecodeIsTheWordIffCanonical : Prop :=
  ∀ (w : Word) (i : Instr), decode w = .ok i →
    (encode i = some w ↔
      (opField w = 0x00 ∨ opField w = 0x03 → argField w = 0) ∧ (opField w = 0x02 → padField w = 0))

/-- Words written out from the spec's encoding table (R65) and its rows of ignored bits and illegal words. -/
def Obligations.WrittenOutWordsDecode : Prop :=
  decode 0x0000 = .ok .nop ∧ decode 0xFF00 = .ok .nop ∧ decode 0x0501 = .ok (.push 0x05) ∧
  decode 0x0502 = .ok (.pop .pc) ∧ decode 0xF302 = .ok (.pop .m) ∧ decode 0x0003 = .ok .adds ∧
  decode 0xF005 = .ok (.sig 0xF0) ∧ decode 0x1204 = .error (.unknownOperator 0x04) ∧
  decode 0xF802 = .error (.unknownRegister 8)

/-- R126, R47: the cell a `PUSH` stored is what a fetch at its address gets; so a pushed literal that PC reaches runs
as the instruction whose operator byte it is, with operand 0. -/
def Obligations.PushedLiteralExecutesAsWritten : Prop :=
  ∀ (s t : State) (l : Byte), s.wf → exec (.push l) s = .next t →
    (t.set .pc (s.get .sp)).fetches (l.setWidth 16) ∧
    decode (l.setWidth 16) =
      if l = 0 then .ok .nop else if l = 1 then .ok (.push 0) else if l = 2 then .ok (.pop .a)
      else if l = 3 then .ok .adds else if l = 5 then .ok (.sig 0) else .error (.unknownOperator l)

/-! ## The step -/

/-- R70 to R74: fetch, advance, decode, execute; each way a phase ends the step. -/
def Obligations.StepRunsDecodedInstruction : Prop :=
  ∀ s : State,
    (s.mem.read2 (s.get .pc).toNat = none → step s = .fault (.fetchFault (s.get .pc) s)) ∧
    (∀ w b, s.fetches w → decode w = .error (.unknownOperator b) →
      step s = .fault (.unknownOperator b s.advanced)) ∧
    (∀ w f, s.fetches w → decode w = .error (.unknownRegister f) →
      step s = .fault (.unknownRegister f s.advanced)) ∧
    (∀ w i, s.fetches w → decode w = .ok i → step s = exec i s.advanced)

/-- R101. -/
def Obligations.FetchFaultExactlyWhenWordOutsideMemory : Prop :=
  ∀ (s t : State) (a : Word),
    step s = .fault (.fetchFault a t) ↔ s.mem.size ≤ (s.get .pc).toNat + 1 ∧ a = s.get .pc ∧ t = s

/-- R102. -/
def Obligations.UnknownOperatorExactlyOnIllegalOperator : Prop :=
  ∀ (s t : State) (b : Byte),
    step s = .fault (.unknownOperator b t) ↔
      (∃ w, s.fetches w ∧ opField w = b) ∧ (b = 0x04 ∨ 6 ≤ b.toNat) ∧ t = s.advanced

/-- R103. -/
def Obligations.UnknownRegisterExactlyOnIllegalField : Prop :=
  ∀ (s t : State) (f : BitVec 4),
    step s = .fault (.unknownRegister f t) ↔
      (∃ w, s.fetches w ∧ opField w = 0x02 ∧ regField w = f) ∧ 8 ≤ f.toNat ∧ t = s.advanced

/-- R104. -/
def Obligations.UnknownSignalExactlyWhenNoHandler : Prop :=
  ∀ (s t : State) (c : Byte),
    step s = .fault (.unknownSignal c t) ↔
      (∃ w, s.fetches w ∧ opField w = 0x05 ∧ argField w = c) ∧ s.handler c = none ∧ t = s.advanced

/-- R105: of all instructions only `PUSH` raises it; `ADDS` cannot (R90). -/
def Obligations.StackWriteFaultExactlyOnPushAtMemoryEnd : Prop :=
  ∀ (s t : State) (a : Word),
    step s = .fault (.stackWriteFault a t) ↔
      (∃ w, s.fetches w ∧ opField w = 0x01) ∧ s.mem.size ≤ (s.get .sp).toNat + 1 ∧ a = s.get .sp ∧
        t = s.advanced

/-- R106: raised by `POP` and by the first pop of `ADDS` only. -/
def Obligations.StackReadFaultExactlyOnPopAboveMemory : Prop :=
  ∀ (s t : State) (a : Word),
    step s = .fault (.stackReadFault a t) ↔
      (∃ w, s.fetches w ∧ (opField w = 0x02 ∧ (regField w).toNat < 8 ∨ opField w = 0x03)) ∧
        2 ≤ (s.get .sp).toNat ∧ s.mem.size < (s.get .sp).toNat ∧ a = s.get .sp - 2 ∧ t = s.advanced

/-- R107 (decisions D2, D13), R90: a pop entered with SP 0 or 1; the second pop of `ADDS` after the first. -/
def Obligations.StackUnderflowExactlyOnPopBelowTwo : Prop :=
  ∀ (s t : State) (v : Word),
    step s = .fault (.stackUnderflow v t) ↔
      ((∃ w, s.fetches w ∧ (opField w = 0x02 ∧ (regField w).toNat < 8 ∨ opField w = 0x03)) ∧
        (s.get .sp).toNat < 2 ∧ v = s.get .sp ∧ t = s.advanced) ∨
      ((∃ w, s.fetches w ∧ opField w = 0x03) ∧
        (s.get .sp = 2 ∨ s.get .sp = 3) ∧ (s.get .sp).toNat ≤ s.mem.size ∧ v = s.get .sp - 2 ∧
        t = s.advanced.set .sp (s.get .sp - 2))

/-- R108. -/
def Obligations.HandlerErrorExactlyWhenHandlerFails : Prop :=
  ∀ (s t : State) (c : Byte) (msg : String),
    step s = .fault (.handlerError c msg t) ↔
      (∃ w, s.fetches w ∧ opField w = 0x05 ∧ argField w = c) ∧
        ∃ h, s.handler c = some h ∧ callHandler h s.advanced = (t, some msg)

/-- R100: every step returns `Ok` or one of the eight faults, and each of the eight occurs. The number of each fault is
the spec's decision D11 (assumption log 10). -/
def Obligations.StepAnswersOkOrOneOfEightFaults : Prop :=
  (∀ (a : Word) (b : Byte) (r : BitVec 4) (msg : String) (t : State),
    (Fault.fetchFault a t).code = 1 ∧ (Fault.unknownOperator b t).code = 2 ∧ (Fault.unknownRegister r t).code = 3 ∧
    (Fault.unknownSignal b t).code = 4 ∧ (Fault.stackWriteFault a t).code = 5 ∧
    (Fault.stackReadFault a t).code = 6 ∧ (Fault.stackUnderflow a t).code = 7 ∧
    (Fault.handlerError b msg t).code = 8) ∧
  (∀ s : State, (∃ t, step s = .next t) ∨ ∃ f, step s = .fault f ∧ 1 ≤ f.code ∧ f.code ≤ 8) ∧
  ∀ k, 1 ≤ k → k ≤ 8 → ∃ s f, step s = .fault f ∧ f.code = k

/-- R111, row by row: PC, SP, memory, other registers, halt flag and signal table after each fault. That memory is
unchanged after `StackWriteFault` rests on the spec's decision D6 (assumption log 12), that `StackUnderflow` carries SP on
its decision D13 (assumption log 10). -/
def Obligations.FailedStepLeavesThePartialState : Prop :=
  ∀ (s : State) (f : Fault), step s = .fault f →
    match f with
    | .fetchFault a t => a = s.get .pc ∧ t = s
    | .handlerError c msg t => ∃ h, s.handler c = some h ∧ callHandler h s.advanced = (t, some msg)
    | .stackUnderflow v t =>
      t.get .pc = s.get .pc + 2 ∧ t.mem = s.mem ∧ t.halt = s.halt ∧ t.sig = s.sig ∧ t.hostCalls = s.hostCalls ∧
      (∀ r, r ≠ .pc → r ≠ .sp → t.get r = s.get r) ∧ v = t.get .sp ∧ v.toNat < 2 ∧
      (t.get .sp = s.get .sp ∨
        (s.get .sp = 2 ∨ s.get .sp = 3) ∧ t.get .sp = s.get .sp - 2 ∧ ∃ w, s.fetches w ∧ opField w = 0x03)
    | f =>
      (∀ a t, f = .stackWriteFault a t → a = s.get .sp) ∧ (∀ a t, f = .stackReadFault a t → a = s.get .sp - 2) ∧
      f.after.get .pc = s.get .pc + 2 ∧ f.after.mem = s.mem ∧ f.after.halt = s.halt ∧ f.after.sig = s.sig ∧
      f.after.hostCalls = s.hostCalls ∧ ∀ r, r ≠ .pc → f.after.get r = s.get r

/-- R113: a step repeated after `FetchFault` raises it again, as often as the host likes. -/
def Obligations.FetchFaultRepeatsForever : Prop :=
  ∀ (s t : State) (a : Word) (n : Nat), step s = .fault (.fetchFault a t) →
    stepAnyway^[n] s = s ∧ step (stepAnyway^[n] s) = .fault (.fetchFault a t)

/-- R112, R113, R130: after any fault but `FetchFault` and `HandlerError` the host's next step fetches the following
word: the faulting instruction is skipped, not retried. -/
def Obligations.OtherFaultsSkipTheInstruction : Prop :=
  ∀ (s : State) (f : Fault), step s = .fault f → f.code ≠ 1 → f.code ≠ 8 →
    (stepAnyway s).get .pc = s.get .pc + 2 ∧
    fetch (stepAnyway s) =
      match s.mem.read2 (s.get .pc + 2).toNat with
      | some w => .ok w
      | none => .error (.fetchFault (s.get .pc + 2) (stepAnyway s))

/-- R78: no instruction but `SIG` lets the halt flag influence a step, and the step carries the flag through. -/
def Obligations.StepDoesNotTestTheHaltFlag : Prop :=
  ∀ (s : State) (b : Bool), (∀ w, s.fetches w → opField w ≠ 0x05) →
    step (s.withHalt b) = mapState (fun t => t.withHalt b) (step s)

/-- R83: outside `SIG` a step reads no register but PC and SP: changing another register changes nothing else, and
a successful `POP` into that register forgets the change. -/
def Obligations.StepReadsOnlyPcAndSp : Prop :=
  ∀ (s : State) (r : Register) (v : Word), r ≠ .pc → r ≠ .sp → (∀ w, s.fetches w → opField w ≠ 0x05) →
    ((∀ w, s.fetches w → ¬(opField w = 0x02 ∧ regField w = r.field)) →
      step (s.set r v) = mapState (fun t => t.set r v) (step s)) ∧
    ((∃ w, s.fetches w ∧ opField w = 0x02 ∧ regField w = r.field) →
      (∀ t, step s = .next t → step (s.set r v) = .next t) ∧
      ∀ f, step s = .fault f → step (s.set r v) = .fault (f.mapAfter (fun t => t.set r v)))

/-- R80, S5 with its restriction (C2): PC after a successful step. -/
def Obligations.SuccessfulStepAdvancesPcByTwo : Prop :=
  ∀ s t : State, step s = .next t →
    ∃ w, s.fetches w ∧
      (opField w ≠ 0x05 → ¬(opField w = 0x02 ∧ regField w = 5) → t.get .pc = s.get .pc + 2) ∧
      (opField w = 0x02 → regField w = 5 → s.mem.read2 ((s.get .sp).toNat - 2) = some (t.get .pc))

/-! ## NOP -/

/-- R85: the 256 words 0x??00 change PC only. -/
def Obligations.NopChangesOnlyPc : Prop :=
  encode .nop = some 0x0000 ∧ (∀ s : State, exec .nop s = .next s) ∧
  ∀ (s : State) (w : Word), s.fetches w → opField w = 0x00 → step s = .next s.advanced

/-! ## PUSH -/

/-- R86: with room for the cell, `PUSH` stores the zero-extended literal at SP, adds 2 to SP, changes nothing else. -/
def Obligations.PushStoresZeroExtendedLiteral : Prop :=
  ∀ (s : State) (l : Byte), s.wf → (s.get .sp).toNat + 1 < s.mem.size →
    ∃ t, exec (.push l) s = .next t ∧
      t.mem.read1 (s.get .sp).toNat = some l ∧ t.mem.read1 ((s.get .sp).toNat + 1) = some 0x00 ∧
      (∀ a, ¬inCell (s.get .sp) a → t.mem.read1 a = s.mem.read1 a) ∧ t.mem.size = s.mem.size ∧
      t.get .sp = s.get .sp + 2 ∧ (∀ r, r ≠ .sp → t.get r = s.get r) ∧
      t.halt = s.halt ∧ t.sig = s.sig ∧ t.hostCalls = s.hostCalls

/-! ## POP -/

/-- R87: with a cell below SP inside memory, `POP` loads it into the target after SP was decremented, and changes
nothing else; for a target SP the popped value stands (R89), for a target PC it is the next fetch address (R88). -/
def Obligations.PopLoadsTheTarget : Prop :=
  ∀ (s : State) (r : Register), 2 ≤ (s.get .sp).toNat → (s.get .sp).toNat ≤ s.mem.size →
    ∃ t lo hi, exec (.pop r) s = .next t ∧
      s.mem.read1 ((s.get .sp).toNat - 2) = some lo ∧ s.mem.read1 ((s.get .sp).toNat - 1) = some hi ∧
      (t.get r).toNat = lo.toNat + 256 * hi.toNat ∧ (r ≠ .sp → t.get .sp = s.get .sp - 2) ∧
      (∀ q, q ≠ r → q ≠ .sp → t.get q = s.get q) ∧
      t.mem = s.mem ∧ t.halt = s.halt ∧ t.sig = s.sig ∧ t.hostCalls = s.hostCalls

/-- R88: `POP PC` in a step: an absolute jump to the popped value; a target outside memory is accepted and makes the
next step raise `FetchFault` of it. -/
def Obligations.PopPcJumpsToThePoppedValue : Prop :=
  ∀ (s : State) (w v : Word), s.fetches w → opField w = 0x02 → regField w = 5 →
    2 ≤ (s.get .sp).toNat → s.mem.read2 ((s.get .sp).toNat - 2) = some v →
    ∃ t, step s = .next t ∧ t = (s.set .sp (s.get .sp - 2)).set .pc v ∧
      (s.mem.size ≤ v.toNat + 1 → step t = .fault (.fetchFault v t))

/-- R89: `POP SP` in a step: SP is the popped value, the decrement is not visible. -/
def Obligations.PopSpRelocatesTheStack : Prop :=
  ∀ (s : State) (w v : Word), s.fetches w → opField w = 0x02 → regField w = 4 →
    2 ≤ (s.get .sp).toNat → s.mem.read2 ((s.get .sp).toNat - 2) = some v →
    step s = .next (s.advanced.set .sp v)

/-- R75, R76, S3: a pop right after a push gives the value back and restores SP, but where SP wrapped (decision D4). -/
def Obligations.PopAfterPushGivesTheValueBack : Prop :=
  ∀ (s t : State) (v : Word), s.wf → push16 v s = .ok t →
    (s.get .sp ≠ 0xFFFE → pop16 t = .ok (v, s.withMem t.mem)) ∧
    (s.get .sp = 0xFFFE → pop16 t = .error (.stackUnderflow 0 t))

/-! ## ADDS -/

/-- R90: with two cells below SP inside memory, `ADDS` replaces them by their sum modulo 65536. -/
def Obligations.AddStackReplacesTwoCellsByTheirSum : Prop :=
  ∀ s : State, s.wf → 4 ≤ (s.get .sp).toNat → (s.get .sp).toNat ≤ s.mem.size →
    ∃ t a b sum, exec .adds s = .next t ∧
      s.mem.read2 ((s.get .sp).toNat - 2) = some a ∧ s.mem.read2 ((s.get .sp).toNat - 4) = some b ∧
      t.mem.read2 ((s.get .sp).toNat - 4) = some sum ∧ sum.toNat = (a.toNat + b.toNat) % 65536 ∧
      t.mem.read2 ((s.get .sp).toNat - 2) = some a ∧
      (∀ x, ¬inCell (s.get .sp - 4) x → t.mem.read1 x = s.mem.read1 x) ∧ t.mem.size = s.mem.size ∧
      t.get .sp = s.get .sp - 2 ∧ (∀ r, r ≠ .sp → t.get r = s.get r) ∧
      t.halt = s.halt ∧ t.sig = s.sig ∧ t.hostCalls = s.hostCalls

/-! ## ADDR -/

/-- R91: both registers are read before `dst` is written; nothing else changes, FLAGS included. -/
def Obligations.RegisterAddWrapsIntoDestination : Prop :=
  ∀ (s : State) (dst src : Register),
    ∃ t, exec (.addr dst src) s = .next t ∧
      (t.get dst).toNat = ((s.get dst).toNat + (s.get src).toNat) % 65536 ∧
      (∀ q, q ≠ dst → t.get q = s.get q) ∧
      t.mem = s.mem ∧ t.halt = s.halt ∧ t.sig = s.sig ∧ t.hostCalls = s.hostCalls

/-! ## SIG -/

/-- R93, R94: with a handler that returns `Ok`, `SIG` leaves the Machine as the handler left it. -/
def Obligations.SignalRunsTheRegisteredHandler : Prop :=
  ∀ (s t : State) (c : Byte) (h : Handler), s.handler c = some h → callHandler h s = (t, none) →
    exec (.sig c) s = .next t

/-- R93, R94, R128: the `SIG` step hands the Machine, with PC already advanced, to the registered handler, and not the
code; what the host's own handler does with it is the free value of its number, of the count of such calls and of that
Machine (assumption log 4). -/
def Obligations.HandlerReceivesTheAdvancedMachine : Prop :=
  (∀ (s : State) (w : Word) (h : Handler), s.fetches w → opField w = 0x05 → s.handler (argField w) = some h →
    step s = signalResult (argField w) (callHandler h s.advanced)) ∧
  ∀ (s : State) (id : Nat),
    callHandler (.host id) s = runScript (Config.hostHandler id s.hostCalls s) s.countHostCall

/-- R94, decisions D15, D21 (assumption log 4, 7): a handler is an arbitrary transformer. From any Machine some handler body
leaves any other with the same MEM_SIZE, which never changes (R22), its signal table and halt flag included, with either
result. -/
def Obligations.SomeHandlerLeavesAnyMachine : Prop :=
  ∀ (s t : State) (res : Option String), s.wf → t.wf → t.mem.size = s.mem.size → t.hostCalls = s.hostCalls →
    ∃ body, callHandler (.script body) s = (t, res)

/-- R98: the halt handler's whole effect, under any code it is registered at. -/
def Obligations.HaltHandlerSetsTheHaltFlag : Prop :=
  (∀ s : State, s.withHaltProfile.handler 0xF0 = some haltHandler) ∧
  (∀ (s : State) (c : Byte), s.handler c = some haltHandler → exec (.sig c) s = .next (s.withHalt true)) ∧
  ∀ s : State, s.handler 0xF0 = none → exec (.sig 0xF0) s = .fault (.unknownSignal 0xF0 s)

/-- R95: the last registration wins, every other entry and all other state is unchanged. -/
def Obligations.LastHandlerRegistrationWins : Prop :=
  ∀ (s : State) (c : Byte) (h : Handler),
    (s.defineHandler c h).handler c = some h ∧
    (∀ c', c' ≠ c → (s.defineHandler c h).handler c' = s.handler c') ∧
    (∀ h', (s.defineHandler c h').defineHandler c h = s.defineHandler c h) ∧
    (∀ r, (s.defineHandler c h).get r = s.get r) ∧ (s.defineHandler c h).mem = s.mem ∧
    (s.defineHandler c h).halt = s.halt ∧ (s.defineHandler c h).hostCalls = s.hostCalls

/-! ## Frames and whole-machine rules -/

/-- R13, R18, R83, R116: which registers an instruction other than `SIG` can change, and that it changes neither halt
flag nor signal table. `push`, `pop` and `adds` move SP, `pop` and `addr` write their target, `nop` writes none. -/
def Obligations.InstructionsChangeOnlyTheirRegisters : Prop :=
  ∀ (i : Instr) (s t : State), (∀ c, i ≠ .sig c) → exec i s = .next t →
    (∀ r, t.get r ≠ s.get r →
      (r = .sp ∧ (i = .adds ∨ (∃ l, i = .push l) ∨ ∃ q, i = .pop q)) ∨ i = .pop r ∨ ∃ src, i = .addr r src) ∧
    t.halt = s.halt ∧ t.sig = s.sig ∧ t.hostCalls = s.hostCalls ∧ t.mem.size = s.mem.size

/-- R41, R83: which bytes an instruction other than `SIG` can change: `push` the cell at SP, `adds` the cell at SP - 4,
`nop`, `pop` and `addr` none. -/
def Obligations.InstructionsChangeOnlyTheirCell : Prop :=
  ∀ (i : Instr) (s t : State), s.wf → (∀ c, i ≠ .sig c) → exec i s = .next t →
    ∀ a, ¬((∃ l, i = .push l) ∧ inCell (s.get .sp) a) → ¬(i = .adds ∧ inCell (s.get .sp - 4) a) →
      t.mem.read1 a = s.mem.read1 a

/-- R18: FLAGS changes in a step only by `POP FLAGS` or in a handler. -/
def Obligations.FlagsChangesOnlyByPopOrSignal : Prop :=
  ∀ s t : State, stateOf (step s) = some t → t.get .flags ≠ s.get .flags →
    ∃ w, s.fetches w ∧ (opField w = 0x02 ∧ regField w = 7 ∨ opField w = 0x05)

/-- R20, R116: the halt flag and the signal table change only in a `SIG` step, in which a handler ran. -/
def Obligations.HaltAndTableChangeOnlyBySignal : Prop :=
  ∀ s t : State, stateOf (step s) = some t → t.halt ≠ s.halt ∨ t.sig ≠ s.sig ∨ t.hostCalls ≠ s.hostCalls →
    ∃ w, s.fetches w ∧ opField w = 0x05 ∧ s.handler (argField w) ≠ none

/-- R22: MEM_SIZE never changes, whatever a step does, a handler included. -/
def Obligations.StepKeepsMemorySize : Prop :=
  ∀ s t : State, stateOf (step s) = some t → t.mem.size = s.mem.size

/-! ## Invariants -/

/-- The model's canonical form holds after construction with every size the hardware allows. -/
def Obligations.ConstructedStateIsWellFormed : Prop :=
  State.reset.wf ∧ ∀ n, n ≤ 65536 → (construct n).wf

/-- Every step, successful or failed, keeps memory and signal table in canonical form. -/
def Obligations.StepKeepsWellFormed : Prop :=
  ∀ s t : State, s.wf → stateOf (step s) = some t → t.wf

/-- R125, one step of it: until `POP SP`, `POP PC` or a handler moves SP or PC, and with MEM_SIZE below 65536, SP stays
at most PC, and no step but `SIG` changes a byte at or above the next instruction's address. -/
def Obligations.StraightLineCodeIsNeverOverwritten : Prop :=
  ∀ s t : State, s.mem.size < 65536 → (s.get .sp).toNat ≤ (s.get .pc).toNat → stateOf (step s) = some t →
    (∀ w, s.fetches w → ¬(opField w = 0x02 ∧ (regField w = 4 ∨ regField w = 5))) →
    (∀ w, s.fetches w → opField w = 0x05 → t.get .sp = s.get .sp ∧ t.get .pc = s.get .pc + 2) →
    (t.get .sp).toNat ≤ (t.get .pc).toNat ∧
    (s.wf → (∀ w, s.fetches w → opField w ≠ 0x05) →
      ∀ a, (s.get .pc).toNat + 2 ≤ a → t.mem.read1 a = s.mem.read1 a)

/-! ## Runs and the host -/

/-- R129: in memory that reads as zero, `k` steps are `k` Nops; past the end FetchFault; with 65536 bytes and an even
PC the run never ends. -/
def Obligations.ZeroMemoryRunsAsNops : Prop :=
  ∀ (s : State) (k : Nat), (∀ a < s.mem.size, s.mem.read1 a = some 0x00) →
    ((s.get .pc).toNat + 2 * k ≤ s.mem.size →
      Sys2Proof.core.run k s = .next (s.set .pc (s.get .pc + BitVec.ofNat 16 (2 * k)))) ∧
    (s.mem.size < 65536 → (s.get .pc).toNat + 2 * k ≤ s.mem.size → s.mem.size ≤ (s.get .pc).toNat + 2 * k + 1 →
      step (s.set .pc (s.get .pc + BitVec.ofNat 16 (2 * k))) =
        .fault (.fetchFault (s.get .pc + BitVec.ofNat 16 (2 * k))
          (s.set .pc (s.get .pc + BitVec.ofNat 16 (2 * k))))) ∧
    (s.mem.size = 65536 → (s.get .pc).toNat % 2 = 0 →
      Sys2Proof.core.run k s = .next (s.set .pc (s.get .pc + BitVec.ofNat 16 (2 * k))))

/-- R79, R81 (decision D14): the default loop tests the flag before each step, the first included. It ends Halted at the
first state with the flag set, aborts with the fault of the first failed step, every state before having the flag clear,
and is never refused. -/
def Obligations.RunLoopEndsHaltedOrAtFirstFault : Prop :=
  ∀ (n : Nat) (s : State),
    match runLoop n s with
    | .halted t => t.halt = true ∧ ∃ k ≤ n, Sys2Proof.core.run k s = .next t ∧
        ∀ j < k, ∃ u, Sys2Proof.core.run j s = .next u ∧ u.halt = false
    | .aborted f => ∃ k < n, ∃ t, Sys2Proof.core.run k s = .next t ∧ step t = .fault f ∧
        ∀ j ≤ k, ∃ u, Sys2Proof.core.run j s = .next u ∧ u.halt = false
    | .outOfFuel t => Sys2Proof.core.run n s = .next t ∧
        ∀ j ≤ n, ∃ u, Sys2Proof.core.run j s = .next u ∧ u.halt = false
    | .refused _ => False

/-- R122: boot succeeds exactly when the image fits, and gives the launch state of (MEM_SIZE, image, handlers). -/
def Obligations.BootGivesTheLaunchState : Prop :=
  ∀ (n : Nat) (image : List Byte) (handlers : List (Byte × Handler)), n ≤ 65536 →
    (n < image.length → boot n image handlers = none) ∧
    (image.length ≤ n → ∃ s, boot n image handlers = some s ∧ s.wf ∧
      (∀ r, s.get r = 0) ∧ s.halt = false ∧ s.mem.size = n ∧
      (∀ a < n, s.mem.read1 a = some ((image[a]?).getD 0x00)) ∧
      ∀ c, s.handler c = (handlers.reverse.find? (fun e => e.1 = c)).map (fun e => e.2))
end

