-- ==== Sys2Proof/Laws/Decode.lean ====
section
/-! SUPPORT. The bit fields of a word, and the decoder read operator byte by operator byte. -/

namespace Sys2Proof

@[simp] theorem wordLo_wordOfBytes (lo hi : Byte) : wordLo (wordOfBytes lo hi) = lo := by
  simp only [wordLo, wordOfBytes, BitVec.extractLsb'_append_eq_right]

@[simp] theorem wordHi_wordOfBytes (lo hi : Byte) : wordHi (wordOfBytes lo hi) = hi := by
  simp only [wordHi, wordOfBytes, BitVec.extractLsb'_append_eq_left]

/-- A word is its two bytes (R36). -/
@[simp] theorem wordOfBytes_lo_hi (w : Word) : wordOfBytes (wordLo w) (wordHi w) = w := by
  refine BitVec.eq_of_getLsbD_eq fun i hi => ?_
  simp only [wordOfBytes, wordLo, wordHi, BitVec.getLsbD_append, BitVec.getLsbD_extractLsb']
  by_cases h : i < 8
  · simp [h]
  · have h8 : 8 + (i - 8) = i := by omega
    have : i - 8 < 8 := by omega
    simp [h, h8, this]

/-- The number two bytes stand for: the byte at the higher address counts 256 (R36). -/
theorem wordOfBytes_toNat (lo hi : Byte) : (wordOfBytes lo hi).toNat = lo.toNat + 256 * hi.toNat := by
  rw [wordOfBytes, BitVec.toNat_append, ← Nat.shiftLeft_add_eq_or_of_lt lo.isLt, Nat.shiftLeft_eq]
  omega

@[simp] theorem ofField_field (r : Register) : Register.ofField r.field = some r := by cases r <;> rfl

/-- A resolved field is the register's own ordinal. -/
theorem field_of_ofField {f : BitVec 4} {r : Register} (h : Register.ofField f = some r) : f = r.field := by
  revert f r; decide

/-- A field resolves exactly when it is at most 7 (R11, R62). -/
theorem ofField_eq_none_iff {f : BitVec 4} : Register.ofField f = none ↔ 8 ≤ f.toNat := by
  revert f; decide

@[simp] theorem wordReg_wordOfBytes_field (lo : Byte) (r : Register) :
    wordReg (wordOfBytes lo (r.field.setWidth 8)) = r.field := by
  cases r <;> (revert lo; decide)

theorem decode_of_lo_00 {w : Word} (h : wordLo w = 0x00) : decode w = .ok .nop := by simp [decode, h]

theorem decode_of_lo_01 {w : Word} (h : wordLo w = 0x01) : decode w = .ok (.push (wordHi w)) := by simp [decode, h]

theorem decode_of_lo_02 {w : Word} (h : wordLo w = 0x02) : decode w = decodePop w := by simp [decode, h]

theorem decode_of_lo_03 {w : Word} (h : wordLo w = 0x03) : decode w = .ok .adds := by simp [decode, h]

theorem decode_of_lo_05 {w : Word} (h : wordLo w = 0x05) : decode w = .ok (.sig (wordHi w)) := by simp [decode, h]

/-- Everything the decoder can answer, by the operator byte. -/
theorem decode_cases (w : Word) :
    (wordLo w = 0x00 ∧ decode w = .ok .nop) ∨
    (wordLo w = 0x01 ∧ decode w = .ok (.push (wordHi w))) ∨
    (wordLo w = 0x02 ∧ ∃ r, wordReg w = r.field ∧ decode w = .ok (.pop r)) ∨
    (wordLo w = 0x02 ∧ 8 ≤ (wordReg w).toNat ∧ decode w = .error (.unknownRegister (wordReg w))) ∨
    (wordLo w = 0x03 ∧ decode w = .ok .adds) ∨
    (wordLo w = 0x05 ∧ decode w = .ok (.sig (wordHi w))) ∨
    ((wordLo w = 0x04 ∨ 6 ≤ (wordLo w).toNat) ∧ decode w = .error (.unknownOperator (wordLo w))) := by
  by_cases h0 : wordLo w = 0x00
  · exact .inl ⟨h0, decode_of_lo_00 h0⟩
  by_cases h1 : wordLo w = 0x01
  · exact .inr (.inl ⟨h1, decode_of_lo_01 h1⟩)
  by_cases h2 : wordLo w = 0x02
  · refine .inr (.inr ?_)
    rw [decode_of_lo_02 h2, decodePop]
    cases h : Register.ofField (wordReg w) with
    | none => exact .inr (.inl ⟨h2, ofField_eq_none_iff.1 h, rfl⟩)
    | some r => exact .inl ⟨h2, r, field_of_ofField h, rfl⟩
  by_cases h3 : wordLo w = 0x03
  · exact .inr (.inr (.inr (.inr (.inl ⟨h3, decode_of_lo_03 h3⟩))))
  by_cases h5 : wordLo w = 0x05
  · exact .inr (.inr (.inr (.inr (.inr (.inl ⟨h5, decode_of_lo_05 h5⟩)))))
  · refine .inr (.inr (.inr (.inr (.inr (.inr ⟨?_, by
      rw [decode, if_neg h0, if_neg h1, if_neg h2, if_neg h3, if_neg h5]⟩)))))
    by_cases h4 : wordLo w = 0x04
    · exact .inl h4
    · right
      by_contra hlt
      have : (wordLo w).toNat = 0 ∨ (wordLo w).toNat = 1 ∨ (wordLo w).toNat = 2 ∨ (wordLo w).toNat = 3 ∨
          (wordLo w).toNat = 4 ∨ (wordLo w).toNat = 5 := by omega
      rcases this with h | h | h | h | h | h <;>
        first
          | exact h0 (BitVec.eq_of_toNat_eq h) | exact h1 (BitVec.eq_of_toNat_eq h)
          | exact h2 (BitVec.eq_of_toNat_eq h) | exact h3 (BitVec.eq_of_toNat_eq h)
          | exact h4 (BitVec.eq_of_toNat_eq h) | exact h5 (BitVec.eq_of_toNat_eq h)

end Sys2Proof
end

