-- ==== Sys2Proof/Laws/SortedMap.lean ====
section
/-! SUPPORT. The finite maps: read after write, and the operations keep the keys sorted. -/

namespace Sys2Proof.Machine

variable {α : Type} {k j : Nat} {x : α} {l : List (Nat × α)}

/-- The entries after an insertion: the new one, and old ones at other keys if the list is sorted. -/
theorem mem_insertAt {e : Nat × α} (h : e ∈ insertAt k x l) : e = (k, x) ∨ e ∈ l := by
  induction l with
  | nil => simpa [insertAt] using h
  | cons p rest ih =>
    obtain ⟨j, y⟩ := p
    simp only [insertAt] at h
    split at h
    · rcases List.mem_cons.1 h with h | h <;> simp_all
    · split at h
      · simpa using h
      · rcases List.mem_cons.1 h with h | h
        · exact .inr (h ▸ List.mem_cons_self)
        · exact (ih h).imp_right (List.mem_cons_of_mem _)

/-- The entries after a removal are old ones. -/
theorem mem_eraseAt {e : Nat × α} (h : e ∈ eraseAt k l) : e ∈ l := by
  induction l with
  | nil => simp [eraseAt] at h
  | cons p rest ih =>
    obtain ⟨j, y⟩ := p
    simp only [eraseAt] at h
    split at h
    · exact List.mem_cons_of_mem _ h
    · split at h
      · exact h
      · rcases List.mem_cons.1 h with h | h
        · exact h ▸ List.mem_cons_self
        · exact List.mem_cons_of_mem _ (ih h)

theorem sorted_insertAt (h : Sorted l) : Sorted (insertAt k x l) := by
  induction l with
  | nil => simp [insertAt, Sorted]
  | cons p rest ih =>
    obtain ⟨j, y⟩ := p
    obtain ⟨hj, hrest⟩ := List.pairwise_cons.1 h
    simp only [insertAt]
    split
    · subst_vars; exact List.pairwise_cons.2 ⟨hj, hrest⟩
    · split
      · refine List.pairwise_cons.2 ⟨fun e he => ?_, h⟩
        rcases List.mem_cons.1 he with rfl | he
        · assumption
        · have := hj e he; simp only at *; omega
      · refine List.pairwise_cons.2 ⟨fun e he => ?_, ih hrest⟩
        rcases mem_insertAt he with rfl | he
        · simp only; omega
        · exact hj e he

theorem sorted_eraseAt (h : Sorted l) : Sorted (eraseAt k l) := by
  induction l with
  | nil => simp [eraseAt, Sorted]
  | cons p rest ih =>
    obtain ⟨j, y⟩ := p
    obtain ⟨hj, hrest⟩ := List.pairwise_cons.1 h
    simp only [eraseAt]
    split
    · exact hrest
    · split
      · exact h
      · exact List.pairwise_cons.2 ⟨fun e he => hj e (mem_eraseAt he), ih hrest⟩

/-- Nothing is listed at a key below every key of the list. -/
theorem lookupAt_of_lt (h : ∀ e ∈ l, k < e.1) : lookupAt k l = none := by
  cases l with
  | nil => rfl
  | cons p rest =>
    have := h p List.mem_cons_self
    simp only [lookupAt]
    rw [if_neg (by omega), if_pos this]

/-- Nothing is listed at a key not above one that is below every key of the list. -/
theorem lookupAt_of_le (h : ∀ e ∈ l, j < e.1) (hk : k ≤ j) : lookupAt k l = none :=
  lookupAt_of_lt fun e he => Nat.lt_of_le_of_lt hk (h e he)

/-- Read after insertion, at every key and on every list. -/
theorem lookupAt_insertAt : lookupAt j (insertAt k x l) = if j = k then some x else lookupAt j l := by
  induction l with
  | nil => by_cases h : j = k <;> simp [insertAt, lookupAt, h]
  | cons p rest ih =>
    obtain ⟨i, y⟩ := p
    simp only [insertAt]
    split
    · rename_i hk
      subst hk
      by_cases h : j = k <;> simp [lookupAt, h]
    · split
      · by_cases h : j = k
        · simp [lookupAt, h]
        · simp only [lookupAt, if_neg h]
          by_cases hjk : j < k
          · rw [if_pos hjk, if_neg (by omega), if_pos (by omega)]
          · rw [if_neg hjk]
      · simp only [lookupAt, ih]
        by_cases h : j = k
        · subst h; simp_all
        · simp [h]

/-- Read after removal, on a sorted list. -/
theorem lookupAt_eraseAt (hs : Sorted l) : lookupAt j (eraseAt k l) = if j = k then none else lookupAt j l := by
  induction l with
  | nil => by_cases h : j = k <;> simp [eraseAt, lookupAt]
  | cons p rest ih =>
    obtain ⟨i, y⟩ := p
    obtain ⟨hi, hrest⟩ := List.pairwise_cons.1 hs
    simp only [eraseAt]
    split
    · rename_i hk
      subst hk
      by_cases h : j = k
      · subst h; simp [lookupAt_of_lt hi]
      · simp only [lookupAt, if_neg h]
        by_cases hjk : j < k
        · rw [if_pos hjk, lookupAt_of_lt (fun e he => by have := hi e he; simp only at this; omega)]
        · rw [if_neg hjk]
    · split
      · by_cases h : j = k
        · subst h; simp_all [lookupAt]
        · simp [h]
      · simp only [lookupAt, ih hrest]
        by_cases h : j = k
        · subst h; simp_all
        · simp [h]

/-- What is listed at a key is an entry. -/
theorem mem_of_lookupAt (h : lookupAt k l = some x) : (k, x) ∈ l := by
  induction l with
  | nil => simp [lookupAt] at h
  | cons p rest ih =>
    obtain ⟨i, y⟩ := p
    simp only [lookupAt] at h
    split at h
    · simp_all
    · split at h
      · simp at h
      · exact List.mem_cons_of_mem _ (ih h)

/-- Nothing is listed at a key that no entry has. -/
theorem lookupAt_eq_none (h : ∀ e ∈ l, e.1 ≠ k) : lookupAt k l = none := by
  cases hk : lookupAt k l with
  | none => rfl
  | some x => exact absurd rfl (h _ (mem_of_lookupAt hk))

/-- The first entry of a sorted list is what is listed at its key. -/
theorem lookupAt_head {p : Nat × α} : lookupAt p.1 (p :: l) = some p.2 := by simp [lookupAt]

/-- Beyond the first key a list reads as its tail. -/
theorem lookupAt_tail {p : Nat × α} (h : p.1 < k) : lookupAt k (p :: l) = lookupAt k l := by
  simp only [lookupAt]
  rw [if_neg (by omega), if_neg (by omega)]

/-- Equal maps are equal lists: two sorted lists that read alike at every key. -/
theorem sorted_ext {l' : List (Nat × α)} (hl : Sorted l) (hl' : Sorted l')
    (h : ∀ k, lookupAt k l = lookupAt k l') : l = l' := by
  induction l generalizing l' with
  | nil =>
    cases l' with
    | nil => rfl
    | cons q rest' => have := h q.1; rw [lookupAt_head] at this; cases this
  | cons p rest ih =>
    obtain ⟨hp, hrest⟩ := List.pairwise_cons.1 hl
    have e := h p.1
    rw [lookupAt_head] at e
    cases l' with
    | nil => cases e
    | cons q rest' =>
      obtain ⟨hq, hrest'⟩ := List.pairwise_cons.1 hl'
      have e' := h q.1
      rw [lookupAt_head] at e'
      have hpq : p.1 = q.1 := by
        rcases Nat.lt_trichotomy p.1 q.1 with g | g | g
        · rw [lookupAt_of_lt fun c hc => by
            rcases List.mem_cons.1 hc with rfl | hc
            · exact g
            · exact g.trans (hq c hc)] at e
          cases e
        · exact g
        · rw [lookupAt_of_lt fun c hc => by
            rcases List.mem_cons.1 hc with rfl | hc
            · exact g
            · exact g.trans (hp c hc)] at e'
          cases e'
      rw [hpq, lookupAt_head] at e
      obtain rfl : p = q := Prod.ext hpq (Option.some.inj e)
      rw [ih hrest hrest' fun k => ?_]
      by_cases hk : p.1 < k
      · rw [← lookupAt_tail hk, h k, lookupAt_tail hk]
      · rw [lookupAt_of_le hp (by omega), lookupAt_of_le hq (by omega)]

end Sys2Proof.Machine
end

