-- ==== Sys2Proof/Laws/Memory.lean ====
section
/-! SUPPORT. The memory controller: sizes, read after write, and the canonical form is kept. -/

namespace Sys2Proof.Machine

variable {m m' : Memory} {a b : Nat} {v : Byte} {w : Word} {bytes : List Byte}

@[simp] theorem poke_size : (m.poke a v).size = m.size := rfl

@[simp] theorem pokes_size : (m.pokes a bytes).size = m.size := by
  induction bytes generalizing m a with
  | nil => rfl
  | cons v rest ih => simp [Memory.pokes, ih]

/-- A byte written in a memory in canonical form reads back, and every other byte reads as before. -/
theorem peek_poke (hm : m.wf) : (m.poke a v).peek b = if b = a then v else m.peek b := by
  simp only [Memory.peek, Memory.poke]
  split
  · rw [lookupAt_eraseAt hm.2.1]
    split <;> simp_all
  · rw [lookupAt_insertAt]
    split <;> simp_all

theorem poke_wf (hm : m.wf) (ha : a < m.size) : (m.poke a v).wf := by
  refine ⟨hm.1, ?_, ?_⟩
  · simp only [Memory.poke]
    split
    · exact sorted_eraseAt hm.2.1
    · exact sorted_insertAt hm.2.1
  · intro c hc
    simp only [Memory.poke] at hc ⊢
    split at hc
    · exact hm.2.2 c (mem_eraseAt hc)
    · rcases mem_insertAt hc with rfl | hc
      · exact ⟨ha, by assumption⟩
      · exact hm.2.2 c hc

/-- The bytes after a run of writes: the new bytes from `a` on, the old ones elsewhere. -/
theorem peek_pokes (hm : m.wf) (ha : a + bytes.length ≤ m.size) :
    (m.pokes a bytes).peek b = if a ≤ b then (bytes[b - a]?).getD (m.peek b) else m.peek b := by
  induction bytes generalizing m a with
  | nil => simp [Memory.pokes]
  | cons v rest ih =>
    simp only [List.length_cons] at ha
    rw [Memory.pokes, ih (poke_wf hm (by omega)) (by simp; omega), peek_poke hm]
    rcases Nat.lt_trichotomy b a with h | h | h
    · rw [if_neg (by omega), if_neg (by omega), if_neg (by omega)]
    · subst h; simp
    · rw [if_pos (by omega), if_neg (by omega), if_pos (by omega)]
      obtain ⟨d, rfl⟩ : ∃ d, b = a + 1 + d := ⟨b - a - 1, by omega⟩
      rw [show a + 1 + d - (a + 1) = d by omega, show a + 1 + d - a = d + 1 by omega, List.getElem?_cons_succ]

theorem pokes_wf (hm : m.wf) (ha : a + bytes.length ≤ m.size) : (m.pokes a bytes).wf := by
  induction bytes generalizing m a with
  | nil => exact hm
  | cons v rest ih =>
    simp only [List.length_cons] at ha
    exact ih (poke_wf hm (by omega)) (by simp; omega)

/-- Equal memories are equal data: two memories in canonical form with the same size and the same bytes. -/
theorem memory_ext (hm : m.wf) (hm' : m'.wf) (hs : m.size = m'.size) (h : ∀ a < m.size, m.peek a = m'.peek a) :
    m = m' := by
  have hc : m.cells = m'.cells := by
    refine sorted_ext hm.2.1 hm'.2.1 fun a => ?_
    by_cases ha : a < m.size
    · have := h a ha
      simp only [Memory.peek] at this
      cases e : lookupAt a m.cells with
      | none =>
        cases e' : lookupAt a m'.cells with
        | none => rfl
        | some v => exact absurd (by simpa [e, e', eq_comm] using this) (hm'.2.2 _ (mem_of_lookupAt e')).2
      | some v =>
        cases e' : lookupAt a m'.cells with
        | none => exact absurd (by simpa [e, e'] using this) (hm.2.2 _ (mem_of_lookupAt e)).2
        | some v' => simpa [e, e'] using this
    · rw [lookupAt_eq_none (k := a) fun e he g => ha (g ▸ (hm.2.2 e he).1),
        lookupAt_eq_none (k := a) fun e he g => ha (hs ▸ g ▸ (hm'.2.2 e he).1)]
  cases m; cases m'; simp_all

/-- `read1` succeeds exactly in range (R31). -/
theorem read1_eq_some_iff : m.read1 a = some v ↔ a < m.size ∧ m.peek a = v := by
  simp only [Memory.read1]; split <;> simp_all

/-- `write1` succeeds exactly in range, and then writes that byte (R32). -/
theorem write1_eq_some_iff : m.write1 a v = some m' ↔ a < m.size ∧ m' = m.poke a v := by
  simp only [Memory.write1]; split <;> simp_all [eq_comm]

/-- `read2` succeeds exactly when both bytes are in range (R33). -/
theorem read2_eq_some_iff : m.read2 a = some w ↔ a + 1 < m.size ∧ w = wordOfBytes (m.peek a) (m.peek (a + 1)) := by
  simp only [Memory.read2]; split <;> simp_all [eq_comm]

theorem read2_eq_none_iff : m.read2 a = none ↔ m.size ≤ a + 1 := by
  simp only [Memory.read2]; split <;> simp_all

/-- `write2` succeeds exactly when both bytes are in range, and then writes both (R34). -/
theorem write2_eq_some_iff :
    m.write2 a w = some m' ↔ a + 1 < m.size ∧ m' = (m.poke a (wordLo w)).poke (a + 1) (wordHi w) := by
  simp only [Memory.write2]; split <;> simp_all [eq_comm]

theorem write2_eq_none_iff : m.write2 a w = none ↔ m.size ≤ a + 1 := by
  simp only [Memory.write2]; split <;> simp_all

theorem write1_size (h : m.write1 a v = some m') : m'.size = m.size := by
  rw [(write1_eq_some_iff.1 h).2, poke_size]

theorem write2_size (h : m.write2 a w = some m') : m'.size = m.size := by
  rw [(write2_eq_some_iff.1 h).2, poke_size, poke_size]

theorem write1_wf (hm : m.wf) (h : m.write1 a v = some m') : m'.wf := by
  obtain ⟨ha, rfl⟩ := write1_eq_some_iff.1 h
  exact poke_wf hm ha

theorem write2_wf (hm : m.wf) (h : m.write2 a w = some m') : m'.wf := by
  obtain ⟨ha, rfl⟩ := write2_eq_some_iff.1 h
  exact poke_wf (poke_wf hm (by omega)) (by simpa using ha)

theorem load_wf (hm : m.wf) (h : m.load bytes a = some m') : m'.wf := by
  simp only [Memory.load] at h
  split at h
  · cases h; exact pokes_wf hm (by assumption)
  · simp at h

/-- Every byte after a successful `write2`: low byte at `a`, high byte at `a + 1`, the rest as before (R34, R36). -/
theorem peek_write2 (hm : m.wf) (h : m.write2 a w = some m') :
    m'.peek b = if b = a + 1 then wordHi w else if b = a then wordLo w else m.peek b := by
  obtain ⟨ha, rfl⟩ := write2_eq_some_iff.1 h
  rw [peek_poke (poke_wf hm (by omega)), peek_poke hm]

/-- The cell just written reads back (R34, R33). -/
theorem read2_write2 (hm : m.wf) (h : m.write2 a w = some m') : m'.read2 a = some w := by
  refine read2_eq_some_iff.2 ⟨by rw [write2_size h]; exact (write2_eq_some_iff.1 h).1, ?_⟩
  rw [peek_write2 hm h, peek_write2 hm h, if_neg (by omega), if_pos rfl, if_pos rfl, wordOfBytes_lo_hi]

/-- Every byte outside the written cell reads as before. -/
theorem read1_write2_of_ne (hm : m.wf) (h : m.write2 a w = some m') (h₀ : b ≠ a) (h₁ : b ≠ a + 1) :
    m'.read1 b = m.read1 b := by
  simp only [Memory.read1, write2_size h, peek_write2 hm h, if_neg h₁, if_neg h₀]

end Sys2Proof.Machine
end

