-- ==== Sys2Proof/Laws/State.lean ====
section
/-! SUPPORT. One lemma per field per update of the state, and the register file's read-after-write laws. -/

namespace Sys2Proof.Machine

variable (s : State) (r q : Register) (v w : Word) (m : Memory) (b : Bool) (t : List (Nat × Handler))

@[simp] theorem set_mem : (s.set r v).mem = s.mem := by cases r <;> rfl
@[simp] theorem set_sig : (s.set r v).sig = s.sig := by cases r <;> rfl
@[simp] theorem set_halt : (s.set r v).halt = s.halt := by cases r <;> rfl
@[simp] theorem set_hostCalls : (s.set r v).hostCalls = s.hostCalls := by cases r <;> rfl
@[simp] theorem set_handler (c : Byte) : (s.set r v).handler c = s.handler c := by cases r <;> rfl

@[simp] theorem withMem_mem : (s.withMem m).mem = m := rfl
@[simp] theorem withMem_sig : (s.withMem m).sig = s.sig := rfl
@[simp] theorem withMem_halt : (s.withMem m).halt = s.halt := rfl
@[simp] theorem withMem_hostCalls : (s.withMem m).hostCalls = s.hostCalls := rfl
@[simp] theorem withMem_get : (s.withMem m).get r = s.get r := by cases r <;> rfl
@[simp] theorem withMem_handler (c : Byte) : (s.withMem m).handler c = s.handler c := rfl
@[simp] theorem withMem_self : s.withMem s.mem = s := rfl

@[simp] theorem withHalt_halt : (s.withHalt b).halt = b := rfl
@[simp] theorem withHalt_mem : (s.withHalt b).mem = s.mem := rfl
@[simp] theorem withHalt_sig : (s.withHalt b).sig = s.sig := rfl
@[simp] theorem withHalt_hostCalls : (s.withHalt b).hostCalls = s.hostCalls := rfl
@[simp] theorem withHalt_get : (s.withHalt b).get r = s.get r := by cases r <;> rfl
@[simp] theorem withHalt_handler (c : Byte) : (s.withHalt b).handler c = s.handler c := rfl

@[simp] theorem withSig_sig : (s.withSig t).sig = t := rfl
@[simp] theorem withSig_mem : (s.withSig t).mem = s.mem := rfl
@[simp] theorem withSig_halt : (s.withSig t).halt = s.halt := rfl
@[simp] theorem withSig_hostCalls : (s.withSig t).hostCalls = s.hostCalls := rfl
@[simp] theorem withSig_get : (s.withSig t).get r = s.get r := by cases r <;> rfl

@[simp] theorem countHostCall_hostCalls : s.countHostCall.hostCalls = s.hostCalls + 1 := rfl
@[simp] theorem countHostCall_mem : s.countHostCall.mem = s.mem := rfl
@[simp] theorem countHostCall_sig : s.countHostCall.sig = s.sig := rfl
@[simp] theorem countHostCall_halt : s.countHostCall.halt = s.halt := rfl
@[simp] theorem countHostCall_get : s.countHostCall.get r = s.get r := by cases r <;> rfl

/-- A written register reads as the value written, every other as before (R12). -/
theorem get_set : (s.set r v).get q = if q = r then v else s.get q := by
  cases r <;> cases q <;> rfl

@[simp] theorem get_set_self : (s.set r v).get r = v := by simp [get_set]

@[simp] theorem get_set_of_ne (h : q ≠ r) : (s.set r v).get q = s.get q := by simp [get_set, h]

@[simp] theorem set_get_self : s.set r (s.get r) = s := by cases r <;> rfl

@[simp] theorem set_set_self : (s.set r v).set r w = s.set r w := by cases r <;> rfl

theorem set_set_of_ne (h : q ≠ r) : (s.set r v).set q w = (s.set q w).set r v := by
  cases r <;> cases q <;> first | exact absurd rfl h | rfl

@[simp] theorem withMem_set : (s.set r v).withMem m = (s.withMem m).set r v := by cases r <;> rfl

theorem set_withHalt : (s.withHalt b).set r v = (s.set r v).withHalt b := by cases r <;> rfl

theorem withMem_withHalt : (s.withHalt b).withMem m = (s.withMem m).withHalt b := rfl

/-- Two states with the same registers, memory, table, flag and counter are equal. -/
theorem state_ext {s t : State} (hr : ∀ r, s.get r = t.get r) (hm : s.mem = t.mem) (hg : s.sig = t.sig)
    (hh : s.halt = t.halt) (hc : s.hostCalls = t.hostCalls) : s = t := by
  rcases s with ⟨⟨a, b, c, m, sp, pc, bp, fl⟩, mem, sg, ha, n⟩
  rcases t with ⟨⟨a', b', c', m', sp', pc', bp', fl'⟩, mem', sg', ha', n'⟩
  have ha := hr .a; have hb := hr .b; have hc' := hr .c; have hm' := hr .m
  have hsp := hr .sp; have hpc := hr .pc; have hbp := hr .bp; have hfl := hr .flags
  simp_all [State.get]

end Sys2Proof.Machine
end

