-- ==== Sys2Proof/Laws/Ops.lean ====
section
/-! SUPPORT. One lemma per shared operation that says all it can do: fetch, decode phase, `Push16`, `Pop16`, the signal
table, and the running of a handler. -/

namespace Sys2Proof.Machine

variable {s t : State} {v w : Word} {f : Fault} {c : Byte} {h : Handler}

theorem nextCell_eq (v : Word) : nextCell v = v + 2 := rfl

theorem advance_eq (s : State) : advance s = s.set .pc (s.get .pc + 2) := rfl

theorem wrappingAdd_toNat (a b : Word) : (wrappingAdd a b).toNat = (a.toNat + b.toNat) % 65536 :=
  BitVec.toNat_add a b

/-- All a fetch can do (R71). -/
theorem fetch_cases (s : State) :
    (∃ w, s.mem.read2 (s.get .pc).toNat = some w ∧ fetch s = .ok w) ∨
    (s.mem.size ≤ (s.get .pc).toNat + 1 ∧ fetch s = .error (.fetchFault (s.get .pc) s)) := by
  cases h : s.mem.read2 (s.get .pc).toNat with
  | some w => exact .inl ⟨w, rfl, by simp [fetch, h]⟩
  | none => exact .inr ⟨read2_eq_none_iff.1 h, by simp [fetch, h, raise]⟩

/-- All the decode phase can do (R73). -/
theorem decodePhase_cases (w : Word) (s : State) :
    (∃ i, decode w = .ok i ∧ decodePhase w s = .ok i) ∨
    (∃ b, decode w = .error (.unknownOperator b) ∧ decodePhase w s = .error (.unknownOperator b s)) ∨
    (∃ r, decode w = .error (.unknownRegister r) ∧ decodePhase w s = .error (.unknownRegister r s)) := by
  cases h : decode w with
  | ok i => exact .inl ⟨i, rfl, by simp [decodePhase, h]⟩
  | error e =>
    cases e with
    | unknownOperator b => exact .inr (.inl ⟨b, rfl, by simp [decodePhase, h, raise]⟩)
    | unknownRegister r => exact .inr (.inr ⟨r, rfl, by simp [decodePhase, h, raise]⟩)

/-- All `Push16` can do (R75). -/
theorem push16_cases (v : Word) (s : State) :
    ((s.get .sp).toNat + 1 < s.mem.size ∧
      ∃ m, s.mem.write2 (s.get .sp).toNat v = some m ∧ push16 v s = .ok ((s.withMem m).set .sp (s.get .sp + 2))) ∨
    (s.mem.size ≤ (s.get .sp).toNat + 1 ∧ push16 v s = .error (.stackWriteFault (s.get .sp) s)) := by
  cases h : s.mem.write2 (s.get .sp).toNat v with
  | some m => exact .inl ⟨(write2_eq_some_iff.1 h).1, m, rfl, by simp [push16, h, nextCell_eq]⟩
  | none => exact .inr ⟨write2_eq_none_iff.1 h, by simp [push16, h, raise]⟩

/-- SP - 2 as a number, where it does not underflow. -/
theorem sub_two_toNat (h : 2 ≤ v.toNat) : (v - 2).toNat = v.toNat - 2 := by
  bv_omega

/-- All `Pop16` can do (R76). -/
theorem pop16_cases (s : State) :
    ((s.get .sp).toNat < 2 ∧ pop16 s = .error (.stackUnderflow (s.get .sp) s)) ∨
    (2 ≤ (s.get .sp).toNat ∧ s.mem.size < (s.get .sp).toNat ∧
      pop16 s = .error (.stackReadFault (s.get .sp - 2) s)) ∨
    (2 ≤ (s.get .sp).toNat ∧ (s.get .sp).toNat ≤ s.mem.size ∧
      ∃ v, s.mem.read2 ((s.get .sp).toNat - 2) = some v ∧ pop16 s = .ok (v, s.set .sp (s.get .sp - 2))) := by
  by_cases h : (s.get .sp).toNat < 2
  · exact .inl ⟨h, by simp [pop16, h, raise]⟩
  · have h2 : 2 ≤ (s.get .sp).toNat := by omega
    refine .inr ?_
    rw [pop16, if_neg h, sub_two_toNat h2]
    cases hr : s.mem.read2 ((s.get .sp).toNat - 2) with
    | none => exact .inl ⟨h2, by have := read2_eq_none_iff.1 hr; omega, rfl⟩
    | some v => exact .inr ⟨h2, by have := (read2_eq_some_iff.1 hr).1; omega, v, rfl, rfl⟩

/-- The table after a registration: the last one wins, every other code is as before (R95). -/
theorem handler_defineHandler (c' : Byte) :
    (s.defineHandler c h).handler c' = if c' = c then some h else s.handler c' := by
  simp only [State.handler, State.defineHandler, withSig_sig, lookupAt_insertAt, signalIndex]
  by_cases hc : c' = c
  · simp [hc]
  · rw [if_neg (fun e => hc (BitVec.eq_of_toNat_eq e)), if_neg hc]

@[simp] theorem defineHandler_mem : (s.defineHandler c h).mem = s.mem := rfl
@[simp] theorem defineHandler_halt : (s.defineHandler c h).halt = s.halt := rfl
@[simp] theorem defineHandler_hostCalls : (s.defineHandler c h).hostCalls = s.hostCalls := rfl
@[simp] theorem defineHandler_get (r : Register) : (s.defineHandler c h).get r = s.get r := by cases r <;> rfl

theorem defineHandler_tableWf (ht : tableWf s.sig) : tableWf (s.defineHandler c h).sig := by
  refine ⟨sorted_insertAt ht.1, fun e he => ?_⟩
  rcases mem_insertAt he with rfl | he
  · exact c.isLt
  · exact ht.2 e he

/-- The table after a removal: nothing for that code, every other code as before. -/
theorem handler_dropHandler (ht : tableWf s.sig) (c' : Byte) :
    (s.dropHandler c).handler c' = if c' = c then none else s.handler c' := by
  simp only [State.handler, State.dropHandler, withSig_sig, lookupAt_eraseAt ht.1, signalIndex]
  by_cases hc : c' = c
  · simp [hc]
  · rw [if_neg (fun e => hc (BitVec.eq_of_toNat_eq e)), if_neg hc]

@[simp] theorem dropHandler_mem : (s.dropHandler c).mem = s.mem := rfl
@[simp] theorem dropHandler_halt : (s.dropHandler c).halt = s.halt := rfl
@[simp] theorem dropHandler_hostCalls : (s.dropHandler c).hostCalls = s.hostCalls := rfl
@[simp] theorem dropHandler_get (r : Register) : (s.dropHandler c).get r = s.get r := by cases r <;> rfl

theorem dropHandler_tableWf (ht : tableWf s.sig) : tableWf (s.dropHandler c).sig :=
  ⟨sorted_eraseAt ht.1, fun e he => ht.2 e (mem_eraseAt he)⟩

/-- Two tables in canonical form with the same handler for every code are equal. -/
theorem table_ext (hs : tableWf s.sig) (ht : tableWf t.sig) (h : ∀ c, s.handler c = t.handler c) : s.sig = t.sig := by
  refine sorted_ext hs.1 ht.1 fun k => ?_
  by_cases hk : k < 256
  · simpa [State.handler, signalIndex, Nat.mod_eq_of_lt hk] using h (BitVec.ofNat 8 k)
  · rw [lookupAt_eq_none (k := k) fun e he g => hk (g ▸ hs.2 e he),
      lookupAt_eq_none (k := k) fun e he g => hk (g ▸ ht.2 e he)]

/-- Whatever every call of a handler body keeps, the whole body keeps. -/
theorem runScript_induction {P : State → Prop}
    (set : ∀ s r v, P s → P (s.set r v))
    (write : ∀ s a v m, P s → s.mem.write1 a v = some m → P (s.withMem m))
    (halt : ∀ s b, P s → P (s.withHalt b))
    (define : ∀ s c h, P s → P (s.defineHandler c h))
    (drop : ∀ s c, P s → P (s.dropHandler c))
    (body : Script) (s : State) (hs : P s) : P (runScript body s).1 :=
  match body with
  | .ok => hs
  | .fail _ => hs
  | .setReg r v rest => runScript_induction set write halt define drop rest _ (set s r v hs)
  | .copyReg dst src rest => runScript_induction set write halt define drop rest _ (set s dst _ hs)
  | .addReg r _ rest => runScript_induction set write halt define drop rest _ (set s r _ hs)
  | .write1 a v rest => by
    refine runScript_induction set write halt define drop rest _ ?_
    cases h : s.mem.write1 a v with
    | none => simpa using hs
    | some m => simpa using write s a v m hs h
  | .setHalt b rest => runScript_induction set write halt define drop rest _ (halt s b hs)
  | .define c h rest => runScript_induction set write halt define drop rest _ (define s c h hs)
  | .drop c rest => runScript_induction set write halt define drop rest _ (drop s c hs)
  | .ifZero r yes no => by
    simp only [runScript]
    split
    · exact runScript_induction set write halt define drop yes s hs
    · exact runScript_induction set write halt define drop no s hs

/-- Whatever every call of a handler body and the counting of host calls keep, a handler keeps. -/
theorem callHandler_induction {P : State → Prop}
    (set : ∀ s r v, P s → P (s.set r v))
    (write : ∀ s a v m, P s → s.mem.write1 a v = some m → P (s.withMem m))
    (halt : ∀ s b, P s → P (s.withHalt b))
    (define : ∀ s c h, P s → P (s.defineHandler c h))
    (drop : ∀ s c, P s → P (s.dropHandler c))
    (count : ∀ s, P s → P s.countHostCall)
    (h : Handler) (s : State) (hs : P s) : P (callHandler h s).1 := by
  cases h with
  | script body => exact runScript_induction set write halt define drop body s hs
  | host id => exact runScript_induction set write halt define drop _ _ (count s hs)

end Sys2Proof.Machine
end

