-- ==== Sys2Proof/Laws/Exec.lean ====
section
/-! SUPPORT. What each meaning can do, said once, and what a step can do in terms of its four phases. -/

namespace Sys2Proof.Machine

/-- All `PUSH` can do. -/
theorem execPush_cases (l : Byte) (s : State) :
    ((s.get .sp).toNat + 1 < s.mem.size ∧
      ∃ m, s.mem.write2 (s.get .sp).toNat (literalValue l) = some m ∧
        exec (.push l) s = .next ((s.withMem m).set .sp (s.get .sp + 2))) ∨
    (s.mem.size ≤ (s.get .sp).toNat + 1 ∧ exec (.push l) s = .fault (.stackWriteFault (s.get .sp) s)) := by
  rcases push16_cases (literalValue l) s with ⟨h, m, hm, hp⟩ | ⟨h, hp⟩
  · exact .inl ⟨h, m, hm, by simp only [exec, execPush, hp, finish]⟩
  · exact .inr ⟨h, by simp only [exec, execPush, hp, finish]⟩

/-- All `POP` can do. -/
theorem execPop_cases (r : Register) (s : State) :
    ((s.get .sp).toNat < 2 ∧ exec (.pop r) s = .fault (.stackUnderflow (s.get .sp) s)) ∨
    (2 ≤ (s.get .sp).toNat ∧ s.mem.size < (s.get .sp).toNat ∧
      exec (.pop r) s = .fault (.stackReadFault (s.get .sp - 2) s)) ∨
    (2 ≤ (s.get .sp).toNat ∧ (s.get .sp).toNat ≤ s.mem.size ∧
      ∃ v, s.mem.read2 ((s.get .sp).toNat - 2) = some v ∧
        exec (.pop r) s = .next ((s.set .sp (s.get .sp - 2)).set r v)) := by
  rcases pop16_cases s with ⟨h, hp⟩ | ⟨h, h', hp⟩ | ⟨h, h', v, hv, hp⟩
  · exact .inl ⟨h, by simp only [exec, execPop, hp]⟩
  · exact .inr (.inl ⟨h, h', by simp only [exec, execPop, hp]⟩)
  · exact .inr (.inr ⟨h, h', v, hv, by simp only [exec, execPop, hp]⟩)

/-- All `ADDS` can do. -/
theorem execAdds_cases (s : State) :
    ((s.get .sp).toNat < 2 ∧ exec .adds s = .fault (.stackUnderflow (s.get .sp) s)) ∨
    (2 ≤ (s.get .sp).toNat ∧ s.mem.size < (s.get .sp).toNat ∧
      exec .adds s = .fault (.stackReadFault (s.get .sp - 2) s)) ∨
    (2 ≤ (s.get .sp).toNat ∧ (s.get .sp).toNat < 4 ∧ (s.get .sp).toNat ≤ s.mem.size ∧
      exec .adds s = .fault (.stackUnderflow (s.get .sp - 2) (s.set .sp (s.get .sp - 2)))) ∨
    (4 ≤ (s.get .sp).toNat ∧ (s.get .sp).toNat ≤ s.mem.size ∧
      ∃ a b m, s.mem.read2 ((s.get .sp).toNat - 2) = some a ∧ s.mem.read2 ((s.get .sp).toNat - 4) = some b ∧
        s.mem.write2 ((s.get .sp).toNat - 4) (a + b) = some m ∧
        exec .adds s = .next ((s.withMem m).set .sp (s.get .sp - 2))) := by
  rcases pop16_cases s with ⟨h, hp⟩ | ⟨h, h', hp⟩ | ⟨h, h', a, ha, hp⟩
  · exact .inl ⟨h, by simp only [exec, execAdds, hp]⟩
  · exact .inr (.inl ⟨h, h', by simp only [exec, execAdds, hp]⟩)
  · have e2 : (s.get .sp - 2).toNat = (s.get .sp).toNat - 2 := sub_two_toNat h
    rcases pop16_cases (s.set .sp (s.get .sp - 2)) with ⟨g, hq⟩ | ⟨g, g', hq⟩ | ⟨g, g', b, hb, hq⟩
    · simp only [get_set_self, e2] at g
      simp only [get_set_self] at hq
      exact .inr (.inr (.inl ⟨h, by omega, h', by simp only [exec, execAdds, hp, hq]⟩))
    · simp only [get_set_self, e2, set_mem] at g g'
      omega
    · simp only [get_set_self, e2, set_mem] at g g' hb
      have e4 : (s.get .sp - 2 - 2).toNat = (s.get .sp).toNat - 4 := by rw [sub_two_toNat (by omega), e2]; omega
      simp only [get_set_self, set_set_self] at hq
      rcases push16_cases (a + b) (s.set .sp (s.get .sp - 2 - 2)) with ⟨k, m, hm, hw⟩ | ⟨k, hw⟩
      · simp only [get_set_self, set_mem, e4] at k hm
        simp only [get_set_self, withMem_set, set_set_self, BitVec.sub_add_cancel] at hw
        refine .inr (.inr (.inr ⟨by omega, h', a, b, m, ha, ?_, hm, ?_⟩))
        · rw [← hb]; congr 1
        · simp only [exec, execAdds, hp, hq, wrappingAdd, recordSum, hw, finish]
      · simp only [get_set_self, set_mem, e4] at k
        omega

/-- All `SIG` can do. -/
theorem execSig_cases (c : Byte) (s : State) :
    (s.handler c = none ∧ exec (.sig c) s = .fault (.unknownSignal c s)) ∨
    (∃ h t, s.handler c = some h ∧ callHandler h s = (t, none) ∧ exec (.sig c) s = .next t) ∨
    (∃ h t msg, s.handler c = some h ∧ callHandler h s = (t, some msg) ∧
      exec (.sig c) s = .fault (.handlerError c msg t)) := by
  cases hh : s.handler c with
  | none => exact .inl ⟨rfl, by simp only [exec, execSig, hh]⟩
  | some h =>
    refine .inr ?_
    rcases hc : callHandler h s with ⟨t, _ | msg⟩
    · exact .inl ⟨h, t, rfl, hc, by simp only [exec, execSig, hh, hc, signalResult]⟩
    · exact .inr ⟨h, t, msg, rfl, hc, by simp only [exec, execSig, hh, hc, signalResult]⟩

/-- All a step can do, phase by phase (R70). -/
theorem step_cases (s : State) :
    (s.mem.size ≤ (s.get .pc).toNat + 1 ∧ step s = .fault (.fetchFault (s.get .pc) s)) ∨
    (∃ w b, s.fetches w ∧ decode w = .error (.unknownOperator b) ∧
      step s = .fault (.unknownOperator b s.advanced)) ∨
    (∃ w f, s.fetches w ∧ decode w = .error (.unknownRegister f) ∧
      step s = .fault (.unknownRegister f s.advanced)) ∨
    (∃ w i, s.fetches w ∧ decode w = .ok i ∧ step s = exec i s.advanced) := by
  rcases fetch_cases s with ⟨w, hw, hf⟩ | ⟨h, hf⟩
  · refine .inr ?_
    rcases decodePhase_cases w (advance s) with ⟨i, hd, hp⟩ | ⟨b, hd, hp⟩ | ⟨r, hd, hp⟩
    · exact .inr (.inr ⟨w, i, hw, hd, by simp only [step, hf, hp]; rfl⟩)
    · exact .inl ⟨w, b, hw, hd, by simp only [step, hf, hp]; rfl⟩
    · exact .inr (.inl ⟨w, r, hw, hd, by simp only [step, hf, hp]; rfl⟩)
  · exact .inl ⟨h, by simp only [step, hf]⟩

/-- The fields of an instruction word are the ones the decoder reads. -/
theorem opField_eq (w : Word) : opField w = wordLo w := rfl

theorem argField_eq (w : Word) : argField w = wordHi w := rfl

theorem regField_eq (w : Word) : regField w = wordReg w := rfl

/-- All a step can do, by the fetched word (R55, R70). -/
theorem step_word_cases (s : State) :
    (s.mem.size ≤ (s.get .pc).toNat + 1 ∧ step s = .fault (.fetchFault (s.get .pc) s)) ∨
    ∃ w, s.fetches w ∧
      ((opField w = 0x00 ∧ step s = exec .nop s.advanced) ∨
       (opField w = 0x01 ∧ step s = exec (.push (argField w)) s.advanced) ∨
       (opField w = 0x02 ∧ ∃ r, regField w = r.field ∧ step s = exec (.pop r) s.advanced) ∨
       (opField w = 0x02 ∧ 8 ≤ (regField w).toNat ∧ step s = .fault (.unknownRegister (regField w) s.advanced)) ∨
       (opField w = 0x03 ∧ step s = exec .adds s.advanced) ∨
       (opField w = 0x05 ∧ step s = exec (.sig (argField w)) s.advanced) ∨
       ((opField w = 0x04 ∨ 6 ≤ (opField w).toNat) ∧ step s = .fault (.unknownOperator (opField w) s.advanced))) := by
  rcases step_cases s with h | ⟨w, b, hw, hd, hs⟩ | ⟨w, f, hw, hd, hs⟩ | ⟨w, i, hw, hd, hs⟩
  · exact .inl h
  all_goals
    refine .inr ⟨w, hw, ?_⟩
    rw [opField_eq, argField_eq, regField_eq]
    rcases decode_cases w with ⟨h, e⟩ | ⟨h, e⟩ | ⟨h, r, hr, e⟩ | ⟨h, hr, e⟩ | ⟨h, e⟩ | ⟨h, e⟩ | ⟨h, e⟩ <;>
      rw [hd] at e <;> cases e
  · exact .inr (.inr (.inr (.inr (.inr (.inr ⟨h, hs⟩)))))
  · exact .inr (.inr (.inr (.inl ⟨h, hr, hs⟩)))
  · exact .inl ⟨h, hs⟩
  · exact .inr (.inl ⟨h, hs⟩)
  · exact .inr (.inr (.inl ⟨h, r, hr, hs⟩))
  · exact .inr (.inr (.inr (.inr (.inl ⟨h, hs⟩))))
  · exact .inr (.inr (.inr (.inr (.inr (.inl ⟨h, hs⟩)))))

end Sys2Proof.Machine
end

