-- ==== Sys2Proof/Laws/PerInstr.lean ====
section
/-! SUPPORT. Facts stated for every instruction, one lemma per constructor. -/

namespace Sys2Proof.Laws

/-- An instruction is well-formed exactly when the encoder has a word for it (R65). -/
def Encodable.Statement (i : Instr) : Prop := i.wellFormed = (encode i).isSome

theorem Encodable.nop : Encodable.Statement .nop := rfl
theorem Encodable.push (l : Byte) : Encodable.Statement (.push l) := rfl
theorem Encodable.pop (r : Register) : Encodable.Statement (.pop r) := rfl
theorem Encodable.adds : Encodable.Statement .adds := rfl
theorem Encodable.addr (dst src : Register) : Encodable.Statement (.addr dst src) := rfl
theorem Encodable.sig (c : Byte) : Encodable.Statement (.sig c) := rfl

end Sys2Proof.Laws
end

