-- ==== Sys2Proof/Laws/Step.lean ====
section
/-! SUPPORT. Everything one step can do, as a relation with one constructor per way a step ends. A proof about a step
takes `step_outcome` apart by cases instead of unfolding the step. -/

namespace Sys2Proof.Machine

/-- `StepOutcome s o`: a step from `s` may end in `o`, for the reasons the constructor names. -/
inductive StepOutcome (s : State) : Outcome → Prop where
  | fetchFault (h : s.mem.size ≤ (s.get .pc).toNat + 1) : StepOutcome s (.fault (.fetchFault (s.get .pc) s))
  | unknownOperator (w : Word) (hw : s.fetches w) (hop : opField w = 0x04 ∨ 6 ≤ (opField w).toNat) :
      StepOutcome s (.fault (.unknownOperator (opField w) s.advanced))
  | unknownRegister (w : Word) (hw : s.fetches w) (hop : opField w = 0x02) (hr : 8 ≤ (regField w).toNat) :
      StepOutcome s (.fault (.unknownRegister (regField w) s.advanced))
  | nop (w : Word) (hw : s.fetches w) (hop : opField w = 0x00) : StepOutcome s (.next s.advanced)
  | push (w : Word) (hw : s.fetches w) (hop : opField w = 0x01) (m : Memory)
      (hsp : (s.get .sp).toNat + 1 < s.mem.size)
      (hm : s.mem.write2 (s.get .sp).toNat (literalValue (argField w)) = some m) :
      StepOutcome s (.next ((s.advanced.withMem m).set .sp (s.get .sp + 2)))
  | pushFault (w : Word) (hw : s.fetches w) (hop : opField w = 0x01) (hsp : s.mem.size ≤ (s.get .sp).toNat + 1) :
      StepOutcome s (.fault (.stackWriteFault (s.get .sp) s.advanced))
  | pop (w : Word) (hw : s.fetches w) (hop : opField w = 0x02) (r : Register) (hr : regField w = r.field) (v : Word)
      (h2 : 2 ≤ (s.get .sp).toNat) (hsp : (s.get .sp).toNat ≤ s.mem.size)
      (hv : s.mem.read2 ((s.get .sp).toNat - 2) = some v) :
      StepOutcome s (.next ((s.advanced.set .sp (s.get .sp - 2)).set r v))
  | popUnderflow (w : Word) (hw : s.fetches w) (hop : opField w = 0x02) (r : Register) (hr : regField w = r.field)
      (hsp : (s.get .sp).toNat < 2) : StepOutcome s (.fault (.stackUnderflow (s.get .sp) s.advanced))
  | popFault (w : Word) (hw : s.fetches w) (hop : opField w = 0x02) (r : Register) (hr : regField w = r.field)
      (h2 : 2 ≤ (s.get .sp).toNat) (hsp : s.mem.size < (s.get .sp).toNat) :
      StepOutcome s (.fault (.stackReadFault (s.get .sp - 2) s.advanced))
  | adds (w : Word) (hw : s.fetches w) (hop : opField w = 0x03) (a b : Word) (m : Memory)
      (h4 : 4 ≤ (s.get .sp).toNat) (hsp : (s.get .sp).toNat ≤ s.mem.size)
      (ha : s.mem.read2 ((s.get .sp).toNat - 2) = some a) (hb : s.mem.read2 ((s.get .sp).toNat - 4) = some b)
      (hm : s.mem.write2 ((s.get .sp).toNat - 4) (a + b) = some m) :
      StepOutcome s (.next ((s.advanced.withMem m).set .sp (s.get .sp - 2)))
  | addsUnderflow (w : Word) (hw : s.fetches w) (hop : opField w = 0x03) (hsp : (s.get .sp).toNat < 2) :
      StepOutcome s (.fault (.stackUnderflow (s.get .sp) s.advanced))
  | addsFault (w : Word) (hw : s.fetches w) (hop : opField w = 0x03) (h2 : 2 ≤ (s.get .sp).toNat)
      (hsp : s.mem.size < (s.get .sp).toNat) :
      StepOutcome s (.fault (.stackReadFault (s.get .sp - 2) s.advanced))
  | addsSecondUnderflow (w : Word) (hw : s.fetches w) (hop : opField w = 0x03) (h2 : 2 ≤ (s.get .sp).toNat)
      (h4 : (s.get .sp).toNat < 4) (hsp : (s.get .sp).toNat ≤ s.mem.size) :
      StepOutcome s (.fault (.stackUnderflow (s.get .sp - 2) (s.advanced.set .sp (s.get .sp - 2))))
  | unknownSignal (w : Word) (hw : s.fetches w) (hop : opField w = 0x05) (hn : s.handler (argField w) = none) :
      StepOutcome s (.fault (.unknownSignal (argField w) s.advanced))
  | signal (w : Word) (hw : s.fetches w) (hop : opField w = 0x05) (h : Handler) (t : State)
      (hh : s.handler (argField w) = some h) (hc : callHandler h s.advanced = (t, none)) : StepOutcome s (.next t)
  | handlerError (w : Word) (hw : s.fetches w) (hop : opField w = 0x05) (h : Handler) (t : State) (msg : String)
      (hh : s.handler (argField w) = some h) (hc : callHandler h s.advanced = (t, some msg)) :
      StepOutcome s (.fault (.handlerError (argField w) msg t))

/-- Every step ends in one of these ways. -/
theorem step_outcome (s : State) : StepOutcome s (step s) := by
  rcases step_word_cases s with ⟨h, e⟩ | ⟨w, hw, ⟨hop, e⟩ | ⟨hop, e⟩ | ⟨hop, r, hr, e⟩ | ⟨hop, hr, e⟩ | ⟨hop, e⟩ |
      ⟨hop, e⟩ | ⟨hop, e⟩⟩ <;> rw [e]
  · exact .fetchFault h
  · exact .nop w hw hop
  · rcases execPush_cases (argField w) s.advanced with ⟨h, m, hm, e⟩ | ⟨h, e⟩ <;> rw [e]
    · simpa using .push w hw hop m (by simpa using h) (by simpa using hm)
    · simpa using .pushFault w hw hop (by simpa using h)
  · rcases execPop_cases r s.advanced with ⟨h, e⟩ | ⟨h, h', e⟩ | ⟨h, h', v, hv, e⟩ <;> rw [e]
    · simpa using .popUnderflow w hw hop r hr (by simpa using h)
    · simpa using .popFault w hw hop r hr (by simpa using h) (by simpa using h')
    · simpa using .pop w hw hop r hr v (by simpa using h) (by simpa using h') (by simpa using hv)
  · exact .unknownRegister w hw hop hr
  · rcases execAdds_cases s.advanced with ⟨h, e⟩ | ⟨h, h', e⟩ | ⟨h, h', h'', e⟩ | ⟨h, h', a, b, m, ha, hb, hm, e⟩ <;>
      rw [e]
    · simpa using .addsUnderflow w hw hop (by simpa using h)
    · simpa using .addsFault w hw hop (by simpa using h) (by simpa using h')
    · simpa using .addsSecondUnderflow w hw hop (by simpa using h) (by simpa using h') (by simpa using h'')
    · simpa using .adds w hw hop a b m (by simpa using h) (by simpa using h') (by simpa using ha) (by simpa using hb)
        (by simpa using hm)
  · rcases execSig_cases (argField w) s.advanced with ⟨h, e⟩ | ⟨h, t, hh, hc, e⟩ | ⟨h, t, msg, hh, hc, e⟩ <;> rw [e]
    · exact .unknownSignal w hw hop (by simpa using h)
    · exact .signal w hw hop h t (by simpa using hh) hc
    · exact .handlerError w hw hop h t msg (by simpa using hh) hc
  · exact .unknownOperator w hw hop

/-- A step fetches at most one word. -/
theorem fetches_unique {s : State} {w w' : Word} (h : s.fetches w) (h' : s.fetches w') : w' = w :=
  Option.some.inj (h'.symm.trans h)

/-- Where the word at PC lies outside memory, nothing is fetched. -/
theorem not_fetches {s : State} {w : Word} (h : s.mem.size ≤ (s.get .pc).toNat + 1) : ¬s.fetches w := by
  intro hw
  have := (read2_eq_some_iff.1 hw).1
  omega

/-- A register's own field is legal. -/
theorem field_lt (r : Register) : r.field.toNat < 8 := by cases r <;> decide

end Sys2Proof.Machine
end

