-- ==== Sys2Proof/Tests/Slice0.lean ====
section
/-! SUPPORT. Tests by hand from spec/95_test_vectors.md and the encoding table of spec/30_encoding.md R65, the smoke test
of `wellFormed`, and for every statement with hypotheses a concrete case that meets them (`witness_…`). -/

namespace Sys2Proof.Tests

open Sys2Proof.Machine

/-- A Machine with default memory, the bytes loaded at 0, and SP set. -/
def withImage (bytes : List Byte) (sp : Word) : State := ((State.reset.load bytes 0).getD State.reset).set .sp sp

/-- The state after a successful outcome. -/
def okState : Outcome → Option State
  | .next t => some t
  | _ => none

/-- The number of an outcome's fault; 0 for `Ok` (R100). -/
def faultCode : Outcome → Nat
  | .fault f => f.code
  | _ => 0

/-- Some fact about the state after a successful outcome. -/
def okWith (o : Outcome) (p : State → Bool) : Bool := ((okState o).map p).getD false

/-- Some fact about the state after any outcome. -/
def leaves (o : Outcome) (p : State → Bool) : Bool := ((stateOf o).map p).getD false

/-! ## Decoding: words written out bit by bit from the encoding table (R52, R65) -/

theorem test_decode_nop : decode 0b0000000000000000#16 = .ok .nop := rfl
theorem test_decode_nop_ignored_bits : decode 0b1111111100000000#16 = .ok .nop := rfl
theorem test_decode_push_5 : decode 0b0000010100000001#16 = .ok (.push 5) := rfl
theorem test_decode_pop_flags : decode 0b0000011100000010#16 = .ok (.pop .flags) := rfl
theorem test_decode_pop_m_ignored_bits : decode 0b1111001100000010#16 = .ok (.pop .m) := rfl
theorem test_decode_adds : decode 0b1010101100000011#16 = .ok .adds := rfl
theorem test_decode_addr_is_illegal : decode 0b0001001000000100#16 = .error (.unknownOperator 4) := rfl
theorem test_decode_sig_F0 : decode 0b1111000000000101#16 = .ok (.sig 0xF0) := rfl
theorem test_decode_illegal_register : decode 0b1111100000000010#16 = .error (.unknownRegister 8) := rfl
theorem test_decode_bytes_little_endian : decodeBytes 0x01 0x05 = .ok (.push 5) := rfl
theorem test_decode_table_word : decodeTableWord 16 0x0502 = some (.pop .pc) := rfl
theorem test_encode_words : encode (.push 5) = some 0x0501 ∧ encode (.pop .pc) = some 0x0502 ∧
    encode (.sig 0xF0) = some 0xF005 ∧ encode .nop = some 0 ∧ encode .adds = some 3 := by decide

/-- The one check of `wellFormed` refuses the one Op without an encoding. -/
theorem test_wellFormed_refuses_addr : (Instr.addr .a .b).wellFormed = false ∧ encode (.addr .a .b) = none := by decide

/-! ## Memory controller (section 4 of the vectors) -/

theorem test_write2_read2 : ((State.reset.mem.write2 0x100 0xBEEF).map fun m =>
    (m.read1 0x100, m.read1 0x101, m.read2 0x100, m.read2 0x101, m.read2 0xFF)) =
    some (some 0xEF, some 0xBE, some 0xBEEF, some 0x00BE, some 0xEF00) := by decide
theorem test_bounds : State.reset.mem.read2 8190 = some 0 ∧ State.reset.mem.read2 8191 = none ∧
    State.reset.mem.write2 8191 0xA55A = none ∧ State.reset.mem.read1 8191 = some 0 := by decide
theorem test_write_zero_restores_the_form :
    ((State.reset.mem.write2 2 0xFFFF).bind fun m => m.write2 2 0) = some State.reset.mem := by decide
theorem test_no_wrap_at_top : (construct 65536).mem.read2 0xFFFE = some 0 ∧
    (construct 65536).mem.read2 0xFFFF = none := by decide

/-! ## Single steps (section 5 of the vectors) -/

theorem test_first_instruction_after_reset :
    okWith (step (State.reset.withFetchWord 16 0x7701))
      (fun t => t.get .pc = 2 ∧ t.get .sp = 2 ∧ t.mem.read2 0 = some 0x0077) = true := by decide
theorem test_nop_step : okWith (step (withImage [0x00, 0xFF] 0x10))
    (fun t => t = (withImage [0x00, 0xFF] 0x10).set .pc 2) = true := by decide
theorem test_push_last_cell : okWith (step (withImage [0x01, 0xAB] 0x1FFE))
    (fun t => t.get .sp = 0x2000 ∧ t.mem.read2 8190 = some 0x00AB) = true := by decide
theorem test_push_wraps_sp : okWith (exec (.push 0x55) ((construct 65536).set .sp 0xFFFE))
    (fun t => t.get .sp = 0 ∧ t.mem.read2 0xFFFE = some 0x0055) = true := by decide
theorem test_pop_odd_sp : okWith (step (withImage [0x02, 0x00] 3))
    (fun t => t.get .a = 0 ∧ t.get .sp = 1 ∧ t.get .pc = 2) = true := by decide
theorem test_pop_sp_keeps_popped_value : okWith (step (withImage [0x02, 0x04, 0x00, 0x10] 4))
    (fun t => t.get .sp = 0x1000) = true := by decide
theorem test_adds_odd_cells : okWith (exec .adds (withImage [0, 0x11, 0x22, 0x33, 0x44] 5))
    (fun t => t.get .sp = 3 ∧ t.mem.read2 1 = some 0x6644 ∧ t.mem.read2 3 = some 0x4433) = true := by decide
theorem test_adds_second_underflow : faultCode (exec .adds (withImage [7, 0] 2)) = 7 ∧
    leaves (exec .adds (withImage [7, 0] 2)) (fun t => t = withImage [7, 0] 0) = true := by decide
theorem test_addr_wraps : okWith (exec (.addr .a .b) ((State.reset.set .a 0xFFFF).set .b 1))
    (fun t => t = State.reset.set .b 1) = true := by decide
theorem test_addr_same_register : okWith (exec (.addr .c .c) (State.reset.set .c 0x1234))
    (fun t => t.get .c = 0x2468) = true := by decide

/-- 5.8: a handler sees the advanced PC, may jump, may fail with its writes kept, may register another. -/
theorem test_sig_handlers :
    let h : Handler := .script (.copyReg .a .pc (.setReg .pc 0x100 (.define 4 haltHandler .ok)))
    okWith (step ((withImage [5, 3] 0).defineHandler 3 h))
      (fun t => t.get .a = 2 ∧ t.get .pc = 0x100 ∧ t.handler 4 = some haltHandler ∧ t.handler 3 = some h) = true := by
  decide
theorem test_sig_handler_error :
    let s := (withImage [5, 2] 0).defineHandler 2 (.script (.setReg .b 9 (.fail "no")))
    faultCode (step s) = 8 ∧ leaves (step s) (fun t => t = (s.set .pc 2).set .b 9) = true := by decide

/-- A handler transforms the whole Machine (R94, D15, D21): here it empties the signal table. -/
theorem test_sig_handler_drops_itself :
    let s := (withImage [5, 2] 0).defineHandler 2 (.script (.drop 2 .ok))
    okWith (step s) (fun t => t = (withImage [5, 2] 0).set .pc 2) = true := by decide

/-- Program 8's handler: decrement A; at zero skip the next two instructions. -/
theorem test_handler_decides :
    let h : Script := .addReg .a 0xFFFF (.ifZero .a (.addReg .pc 4 .ok) .ok)
    (runScript h ((State.reset.set .a 1).set .pc 0x10)).1 = State.reset.set .pc 0x14 ∧
    (runScript h ((State.reset.set .a 2).set .pc 0x10)).1 = (State.reset.set .a 1).set .pc 0x10 := by decide

/-- One trigger per fault, in the order of R100 (section 6 of the vectors). -/
theorem test_fault_numbers :
    [step (State.reset.set .pc 0x1FFF), step (withImage [6, 0] 0), step (withImage [2, 8] 4), step (withImage [5, 0] 0),
     step (withImage [1, 0] 0x1FFF), step (withImage [2, 0] 0x2001), step (withImage [2, 0] 0),
     step ((withImage [5, 0] 0).defineHandler 0 (.script (.fail "e")))].map faultCode = [1, 2, 3, 4, 5, 6, 7, 8] := by
  decide

/-- `ADDS` at the boundaries between its clauses: SP 1, 2, 3, 4, 8192, 8193. -/
theorem test_adds_clauses :
    ([1, 2, 3, 4, 8192, 8193].map fun v => faultCode (exec .adds (withImage [] v))) = [7, 7, 7, 0, 0, 6] := by decide

/-- `POP` at the boundaries between its clauses: SP 1, 2, 8192, 8193. -/
theorem test_pop_clauses :
    ([1, 2, 8192, 8193].map fun v => faultCode (exec (.pop .a) (withImage [] v))) = [7, 0, 0, 6] := by decide

/-! ## Witnesses: for each statement with hypotheses, values that meet them, each clause at its boundary -/

theorem witness_ConstructionLeavesResetValues : 8191 < 8192 ∧ (construct 8192).mem.size = 8192 := by decide

theorem witness_RegisterWriteChangesOneCell : Register.pc ≠ Register.sp := by decide

theorem witness_ByteWriteChangesOneByte :
    State.reset.mem.wf ∧ 8191 < State.reset.mem.size ∧ State.reset.mem.size ≤ 8192 := by decide

theorem witness_HalfwordWriteIsAllOrNothing :
    State.reset.mem.wf ∧ 8190 + 1 < State.reset.mem.size ∧ State.reset.mem.size ≤ 8191 + 1 := by decide

theorem witness_HalfwordAccessesAreByteAccesses : State.reset.mem.wf ∧ State.reset.mem.read2 8190 = some 0 ∧
    ((State.reset.mem.write2 8189 0x1234).bind fun m => m.read2 8190) = some 0x0012 := by decide

theorem witness_LoadIsAllOrNothing : State.reset.mem.wf ∧
    8189 + [0x11#8, 0x22#8, 0x33#8].length ≤ State.reset.mem.size ∧
    State.reset.mem.size < 8190 + [0x11#8, 0x22#8, 0x33#8].length := by decide

theorem witness_OperatorByteSelectsTheInstruction :
    opField 0xFF00 = 0x00 ∧ opField 0xFF01 = 0x01 ∧ (opField 0xF702 = 0x02 ∧ regField 0xF702 = Register.flags.field) ∧
    (opField 0x0802 = 0x02 ∧ 8 ≤ (regField 0x0802).toNat) ∧ opField 0xFF03 = 0x03 ∧ opField 0xFF05 = 0x05 := by decide

theorem witness_UnexaminedBitsAreIgnored :
    (opField 0xAB03 = opField 0x0003 ∧ opField 0xAB03 ≠ 0x01 ∧ opField 0xAB03 ≠ 0x02 ∧ opField 0xAB03 ≠ 0x05) ∧
    (opField 0x1502 = opField 0xF502 ∧ opField 0x1502 = 0x02 ∧ regField 0x1502 = regField 0xF502) := by decide

theorem witness_NoWordDecodesToAddRegister : decode 0xF005 = .ok (.sig 0xF0) ∧ opField 0x1204 = 0x04 := ⟨rfl, rfl⟩

theorem witness_DecodeOfEncodeIsTheInstruction :
    [Instr.nop, .push 0xFF, .pop .flags, .adds, .sig 0].all Instr.wellFormed = true := by decide

theorem witness_EncodeOfDecodeIsTheWordIffCanonical :
    decode 0xFF00 = .ok .nop ∧ decode 0x0702 = .ok (.pop .flags) ∧ decode 0x1702 = .ok (.pop .flags) := ⟨rfl, rfl, rfl⟩

theorem witness_PushedLiteralExecutesAsWritten :
    (withImage [] 8190).wf ∧ (okState (exec (.push 5) (withImage [] 8190))).isSome = true := by decide

theorem witness_StepRunsDecodedInstruction :
    (State.reset.set .pc 8191).mem.read2 8191 = none ∧
    ((withImage [4, 0] 0).fetches 0x0004 ∧ decode 0x0004 = .error (.unknownOperator 4)) ∧
    ((withImage [2, 15] 0).fetches 0x0F02 ∧ decode 0x0F02 = .error (.unknownRegister 15)) ∧
    (withImage [3, 0] 0).fetches 0x0003 ∧ decode 0x0003 = .ok .adds :=
  ⟨by decide, ⟨by decide, rfl⟩, ⟨by decide, rfl⟩, by decide, rfl⟩

theorem witness_FailedStepLeavesThePartialState :
    ∃ f, step (withImage [2, 0] 1) = .fault f ∧ f.code ≠ 1 ∧ f.code ≠ 8 := ⟨_, rfl, by decide, by decide⟩

theorem witness_FetchFaultRepeatsForever :
    step (State.reset.set .pc 8191) = .fault (.fetchFault 8191 (State.reset.set .pc 8191)) := rfl

theorem witness_OtherFaultsSkipTheInstruction :
    ∃ f, step (withImage [6, 0] 1) = .fault f ∧ f.code ≠ 1 ∧ f.code ≠ 8 := ⟨_, rfl, by decide, by decide⟩

/-- What a state whose fetched word is known says of every fetched word. -/
theorem all_fetched {s : State} {u : Word} {p : Word → Prop} (hu : s.fetches u) (hp : p u) : ∀ w, s.fetches w → p w :=
  fun _ hw => Option.some.inj (hu.symm.trans hw) ▸ hp

theorem witness_StepDoesNotTestTheHaltFlag : ∀ w, (withImage [3, 0] 4).fetches w → opField w ≠ 0x05 :=
  all_fetched (u := 0x0003) (by decide) (by decide)

theorem witness_StepReadsOnlyPcAndSp :
    (∀ w, (withImage [2, 0] 2).fetches w → opField w ≠ 0x05) ∧
    (∀ w, (withImage [2, 0] 2).fetches w → ¬(opField w = 0x02 ∧ regField w = Register.b.field)) ∧
    (∃ w, (withImage [2, 0] 2).fetches w ∧ opField w = 0x02 ∧ regField w = Register.a.field) ∧
    (okState (step (withImage [2, 0] 2))).isSome = true ∧ faultCode (step (withImage [2, 0] 1)) = 7 :=
  ⟨all_fetched (u := 0x0002) (by decide) (by decide), all_fetched (u := 0x0002) (by decide) (by decide),
    ⟨0x0002, by decide⟩, by decide, by decide⟩

theorem witness_SuccessfulStepAdvancesPcByTwo :
    okWith (step (withImage [2, 5] 2)) (fun t => t.get .pc = 0x0502) = true ∧
    okWith (step (withImage [2, 7] 2)) (fun t => t.get .pc = 2) = true := by decide

theorem witness_NopChangesOnlyPc : (withImage [0, 0xFF] 0).fetches 0xFF00 ∧ opField 0xFF00 = 0x00 := by decide

theorem witness_PushStoresZeroExtendedLiteral :
    (withImage [] 8190).wf ∧ ((withImage [] 8190).get .sp).toNat + 1 < (withImage [] 8190).mem.size := by decide

theorem witness_PopLoadsTheTarget :
    (2 ≤ ((withImage [] 2).get .sp).toNat ∧ ((withImage [] 2).get .sp).toNat ≤ (withImage [] 2).mem.size) ∧
    2 ≤ ((withImage [] 8192).get .sp).toNat ∧ ((withImage [] 8192).get .sp).toNat ≤ (withImage [] 8192).mem.size := by
  decide

theorem witness_PopPcJumpsToThePoppedValue :
    let s := withImage [2, 5, 0xFF, 0x1F] 4
    s.fetches 0x0502 ∧ opField 0x0502 = 0x02 ∧ regField 0x0502 = 5 ∧ 2 ≤ (s.get .sp).toNat ∧
      s.mem.read2 ((s.get .sp).toNat - 2) = some 0x1FFF ∧ s.mem.size ≤ (0x1FFF#16).toNat + 1 := by decide

theorem witness_PopSpRelocatesTheStack :
    let s := withImage [2, 4] 2
    s.fetches 0x0402 ∧ opField 0x0402 = 0x02 ∧ regField 0x0402 = 4 ∧ 2 ≤ (s.get .sp).toNat ∧
      s.mem.read2 ((s.get .sp).toNat - 2) = some 0x0402 := by decide

theorem witness_PopAfterPushGivesTheValueBack :
    (State.reset.wf ∧ State.reset.get .sp ≠ 0xFFFE ∧ ∃ t, push16 0xBEEF State.reset = .ok t) ∧
    ((construct 65536).set .sp 0xFFFE).wf ∧ ((construct 65536).set .sp 0xFFFE).get .sp = 0xFFFE ∧
      ∃ t, push16 0xBEEF ((construct 65536).set .sp 0xFFFE) = .ok t :=
  ⟨⟨by decide, by decide, _, rfl⟩, by decide, by decide, _, rfl⟩

theorem witness_AddStackReplacesTwoCellsByTheirSum :
    ((withImage [] 4).wf ∧ 4 ≤ ((withImage [] 4).get .sp).toNat ∧
      ((withImage [] 4).get .sp).toNat ≤ (withImage [] 4).mem.size) ∧
    (withImage [] 8192).wf ∧ 4 ≤ ((withImage [] 8192).get .sp).toNat ∧
      ((withImage [] 8192).get .sp).toNat ≤ (withImage [] 8192).mem.size := by decide

theorem witness_SignalRunsTheRegisteredHandler :
    State.reset.withHaltProfile.handler 0xF0 = some haltHandler ∧
    callHandler haltHandler State.reset.withHaltProfile = (State.reset.withHaltProfile.withHalt true, none) := ⟨rfl, rfl⟩

theorem witness_HandlerReceivesTheAdvancedMachine :
    let s := (withImage [5, 7] 0).defineHandler 7 (.host 3)
    s.fetches 0x0705 ∧ opField 0x0705 = 0x05 ∧ s.handler (argField 0x0705) = some (.host 3) := by decide

theorem witness_SomeHandlerLeavesAnyMachine :
    let s := State.reset.withHaltProfile
    let t := (withImage [1, 5] 7).withHalt true
    s.wf ∧ t.wf ∧ t.mem.size = s.mem.size ∧ t.hostCalls = s.hostCalls ∧ s.sig ≠ t.sig := by decide

theorem witness_HaltHandlerSetsTheHaltFlag :
    State.reset.withHaltProfile.handler 0xF0 = some haltHandler ∧ State.reset.handler 0xF0 = none := by decide

theorem witness_LastHandlerRegistrationWins : (0x00 : Byte) ≠ 0xFF := by decide

theorem witness_InstructionsChangeOnlyTheirRegistersAndCell : (withImage [] 4).wf ∧
    ∀ i ∈ [Instr.nop, .push 1, .pop .flags, .adds, .addr .bp .flags],
      (∀ c, i ≠ .sig c) ∧ (okState (exec i (withImage [] 4))).isSome = true := by
  refine ⟨by decide, fun i hi => ⟨?_, ?_⟩⟩
  · rintro c rfl
    simp at hi
  · revert i
    decide

theorem witness_FlagsChangesOnlyByPopOrSignal :
    leaves (step (withImage [2, 7] 2)) (fun t => t.get .flags ≠ (withImage [2, 7] 2).get .flags) = true := by decide

theorem witness_HaltAndTableChangeOnlyBySignal :
    leaves (step (withImage [5, 0xF0] 0).withHaltProfile) (fun t => t.halt ≠ (withImage [5, 0xF0] 0).halt) = true := by
  decide

theorem witness_StepKeepsWellFormedAndMemorySize :
    (withImage [1, 5] 0).wf ∧ (stateOf (step (withImage [1, 5] 0))).isSome = true ∧
    (stateOf (step (withImage [6, 5] 0))).isSome = true := by decide

theorem witness_StraightLineCodeIsNeverOverwritten :
    let s := withImage [1, 5] 0
    s.wf ∧ s.mem.size < 65536 ∧ (s.get .sp).toNat ≤ (s.get .pc).toNat ∧ (stateOf (step s)).isSome = true ∧
      (∀ w, s.fetches w → ¬(opField w = 0x02 ∧ (regField w = 4 ∨ regField w = 5))) ∧
      ∀ w, s.fetches w → opField w ≠ 0x05 :=
  ⟨by decide, by decide, by decide, by decide, all_fetched (u := 0x0501) (by decide) (by decide),
    all_fetched (u := 0x0501) (by decide) (by decide)⟩

theorem witness_ZeroMemoryRunsAsNops :
    (∀ a < State.reset.mem.size, State.reset.mem.read1 a = some 0x00) ∧
    (State.reset.get .pc).toNat + 2 * 4096 ≤ State.reset.mem.size ∧ State.reset.mem.size < 65536 ∧
    State.reset.mem.size ≤ (State.reset.get .pc).toNat + 2 * 4096 + 1 ∧
    (∀ a < (construct 65536).mem.size, (construct 65536).mem.read1 a = some 0x00) ∧
    (construct 65536).mem.size = 65536 ∧ ((construct 65536).get .pc).toNat % 2 = 0 :=
  ⟨fun _ h => if_pos h, by decide, by decide, by decide, fun _ h => if_pos h, rfl, by decide⟩

/-- The state a run of the default loop ends halted in. -/
def haltedState : RunEnd → Option State
  | .halted s => some s
  | _ => none

/-- The loop ends each way: at the first set flag, before the first step if it is set there, at the first fault, at its
bound (R79; S7). -/
theorem witness_RunLoopEndsHaltedOrAtFirstFault :
    let s := (withImage [0, 0, 5, 0xF0, 6, 0] 0).withHaltProfile
    haltedState (runLoop 3 s) = some ((s.set .pc 4).withHalt true) ∧
    haltedState (runLoop 3 (s.withHalt true)) = some (s.withHalt true) ∧
    runLoop 1 s = .outOfFuel (s.set .pc 2) ∧
    runLoop 3 (s.set .pc 4) = .aborted (.unknownOperator 6 (s.set .pc 6)) :=
  ⟨rfl, rfl, rfl, rfl⟩

theorem witness_BootGivesTheLaunchState :
    8 ≤ 65536 ∧ [0x01#8, 0x05#8].length ≤ 8 ∧ 1 < [0x01#8, 0x05#8].length ∧ 1 ≤ 65536 := by decide

end Sys2Proof.Tests
end

section
/-! The byte operations and the 2-byte read of the memory controller (spec/20_memory.md R31, R32, R33): the rules that
Laws/Memory.lean leaves out, and the obligations O3, O4 and O5. -/

namespace Sys2Proof

/-- A word is its low byte plus 256 times its high byte (spec/20_memory.md R33, R36). -/
theorem eq_wordOfBytes_iff {v : Word} {lo hi : Byte} :
    v = wordOfBytes lo hi ↔ v.toNat = lo.toNat + 256 * hi.toNat := by
  rw [← BitVec.toNat_inj, wordOfBytes_toNat]

end Sys2Proof

namespace Sys2Proof.Machine

section
variable {m m' : Memory} {a b : Nat} {v : Byte}

/-- `read1` fails exactly out of range (R31). -/
theorem read1_eq_none_iff : m.read1 a = none ↔ m.size ≤ a := by
  simp [Memory.read1]

/-- `write1` fails exactly out of range (R32). -/
theorem write1_eq_none_iff : m.write1 a v = none ↔ m.size ≤ a := by
  simp [Memory.write1]

/-- The byte just written reads back (R32, R31). -/
theorem read1_write1 (hm : m.wf) (h : m.write1 a v = some m') : m'.read1 a = some v := by
  obtain ⟨ha, rfl⟩ := write1_eq_some_iff.1 h
  exact read1_eq_some_iff.2 ⟨ha, by rw [peek_poke hm, if_pos rfl]⟩

/-- Every other byte reads as before, in range or not (R32). -/
theorem read1_write1_of_ne (hm : m.wf) (h : m.write1 a v = some m') (hb : b ≠ a) : m'.read1 b = m.read1 b := by
  obtain ⟨-, rfl⟩ := write1_eq_some_iff.1 h
  simp only [Memory.read1, poke_size, peek_poke hm, if_neg hb]

end

/-- Settles O3: below the size `read1` answers the byte, and elsewhere it fails. -/
theorem byteReadSucceedsExactlyInRange : Obligations.ByteReadSucceedsExactlyInRange := by
  intro m a
  split
  case isTrue ha => exact read1_eq_some_iff.2 ⟨ha, rfl⟩
  case isFalse ha => exact read1_eq_none_iff.2 (Nat.le_of_not_lt ha)

/-- Settles O4: in range the write answers the memory with that one byte, whose reads are the rules above. -/
theorem byteWriteChangesOneByte : Obligations.ByteWriteChangesOneByte := by
  refine fun m a v hm => ⟨fun ha => ?_, write1_eq_none_iff.2⟩
  have hw : m.write1 a v = some (m.poke a v) := write1_eq_some_iff.2 ⟨ha, rfl⟩
  exact ⟨_, hw, write1_size hw, read1_write1 hm hw, fun _ => read1_write1_of_ne hm hw⟩

/-- Settles O5: in range both byte reads answer the bytes that the word is made of. -/
theorem halfwordReadIsTwoBytes : Obligations.HalfwordReadIsTwoBytes := by
  intro m a v
  rw [read2_eq_some_iff, eq_wordOfBytes_iff]
  constructor
  · rintro ⟨ha, hv⟩
    exact ⟨ha, _, _, read1_eq_some_iff.2 ⟨by omega, rfl⟩, read1_eq_some_iff.2 ⟨ha, rfl⟩, hv⟩
  · rintro ⟨ha, lo, hi, hlo, hhi, hv⟩
    obtain ⟨-, rfl⟩ := read1_eq_some_iff.1 hlo
    obtain ⟨-, rfl⟩ := read1_eq_some_iff.1 hhi
    exact ⟨ha, hv⟩

end Sys2Proof.Machine
end

section
/-! The decoder read operator byte by operator byte (spec/30_encoding.md R56 to R60): the two answers of a `POP` word,
which Laws/Decode.lean leaves at `decodePop`, and the obligation O9. -/

namespace Sys2Proof

/-- A `POP` word whose register field is a register's ordinal pops into that register (R58). -/
theorem decode_of_lo_02_of_reg_eq_field {w : Word} {r : Register} (h : wordLo w = 0x02) (hr : wordReg w = r.field) :
    decode w = .ok (.pop r) := by
  rw [decode_of_lo_02 h, decodePop, hr, ofField_field]

/-- A `POP` word whose register field is 8 or more answers the error with that field (R62). -/
theorem decode_of_lo_02_of_eight_le_reg {w : Word} (h : wordLo w = 0x02) (hr : 8 ≤ (wordReg w).toNat) :
    decode w = .error (.unknownRegister (wordReg w)) := by
  rw [decode_of_lo_02 h, decodePop, ofField_eq_none_iff.2 hr]

end Sys2Proof

namespace Sys2Proof.Machine

/-- Settles O9: the ordinals are those of `Register.field`, and each clause is the decoder's answer to that operator
byte. -/
theorem operatorByteSelectsTheInstruction : Obligations.OperatorByteSelectsTheInstruction := by
  refine ⟨rfl, fun w => ⟨?nop, ?push, ?pop, ?unknownRegister, ?adds, ?sig⟩⟩
  case nop => exact decode_of_lo_00
  case push => exact decode_of_lo_01
  case pop => exact fun _ => decode_of_lo_02_of_reg_eq_field
  case unknownRegister => exact fun hop hreg => ⟨wordReg w, decode_of_lo_02_of_eight_le_reg hop hreg⟩
  case adds => exact decode_of_lo_03
  case sig => exact decode_of_lo_05

end Sys2Proof.Machine
end

section
/-! The four phases of a step in order (spec/40_step_cycle.md R70 to R74): what FETCH and DECODE answer in each case, how
a step goes on from their answers, and the obligation O17. -/

namespace Sys2Proof.Machine

section
variable {s : State} {w : Word} {i : Instr} {f : Fault}

/-- FETCH answers the word at PC (R71). -/
theorem fetch_of_fetches (hw : s.fetches w) : fetch s = .ok w := by
  simp only [fetch, hw]

/-- FETCH raises `FetchFault` where there is no word at PC (R71, R101). -/
theorem fetch_of_read2_eq_none (h : s.mem.read2 (s.get .pc).toNat = none) :
    fetch s = .error (.fetchFault (s.get .pc) s) := by
  simp only [fetch, h, raise]

/-- ADVANCE moves PC on by 2, whatever the word (R72). -/
theorem advance_eq_advanced (s : State) : advance s = s.advanced := advance_eq s

/-- DECODE answers the decoded instruction (R73). -/
theorem decodePhase_of_ok (hd : decode w = .ok i) : decodePhase w s = .ok i := by
  simp only [decodePhase, hd]

/-- DECODE raises an unknown operator in the state it is handed (R73, R102). -/
theorem decodePhase_of_unknownOperator {b : Byte} (hd : decode w = .error (.unknownOperator b)) :
    decodePhase w s = .error (.unknownOperator b s) := by
  simp only [decodePhase, hd, raise]

/-- DECODE raises an unknown register in the state it is handed (R73, R103). -/
theorem decodePhase_of_unknownRegister {r : BitVec 4} (hd : decode w = .error (.unknownRegister r)) :
    decodePhase w s = .error (.unknownRegister r s) := by
  simp only [decodePhase, hd, raise]

/-- A fault in FETCH ends the step (R70). -/
theorem step_of_fetch_error (hf : fetch s = .error f) : step s = .fault f := by
  simp only [step, hf]

/-- DECODE comes after ADVANCE, and a fault in DECODE ends the step (R70). -/
theorem step_of_decodePhase_error (hw : s.fetches w) (hp : decodePhase w s.advanced = .error f) :
    step s = .fault f := by
  simp only [step, fetch_of_fetches hw, advance_eq_advanced, hp]

/-- EXECUTE runs what DECODE answers, in the state ADVANCE left (R70, R74). -/
theorem step_of_decodePhase_ok (hw : s.fetches w) (hp : decodePhase w s.advanced = .ok i) :
    step s = exec i s.advanced := by
  simp only [step, fetch_of_fetches hw, advance_eq_advanced, hp]

end

/-- Settles O17: each clause is a phase's answer followed by the way the step goes on from it. -/
theorem stepRunsDecodedInstruction : Obligations.StepRunsDecodedInstruction := by
  refine fun s => ⟨?fetchFault, ?unknownOperator, ?unknownRegister, ?decoded⟩
  case fetchFault => exact fun h => step_of_fetch_error (fetch_of_read2_eq_none h)
  case unknownOperator =>
    exact fun _ _ hw hd => step_of_decodePhase_error hw (decodePhase_of_unknownOperator hd)
  case unknownRegister =>
    exact fun _ _ hw hd => step_of_decodePhase_error hw (decodePhase_of_unknownRegister hd)
  case decoded => exact fun _ _ hw hd => step_of_decodePhase_ok hw (decodePhase_of_ok hd)

end Sys2Proof.Machine
end

section
/-! `NOP` (spec/41_nop.md R85): its EXECUTE phase keeps the state, so its step is ADVANCE alone; the obligation O33. -/

namespace Sys2Proof.Machine

/-- EXECUTE of `NOP` answers the state it is handed (R85). -/
theorem exec_nop (s : State) : exec .nop s = .next s := rfl

/-- A step on any word with operator byte 0x00, the ignored high byte included, is ADVANCE alone (R85, R63). -/
theorem step_of_opField_00 {s : State} {w : Word} (hw : s.fetches w) (hop : opField w = 0x00) :
    step s = .next s.advanced := by
  have hd : decode w = .ok .nop := decode_of_lo_00 hop
  calc step s
      _ = exec .nop s.advanced := step_of_decodePhase_ok hw (decodePhase_of_ok hd)
      _ = .next s.advanced := exec_nop s.advanced

/-- Settles O33: the encoder's word, the EXECUTE phase of `NOP`, and the step around it. -/
theorem nopChangesOnlyPc : Obligations.NopChangesOnlyPc := by
  refine ⟨?encode, ?exec, ?step⟩
  case encode => rfl
  case exec => exact exec_nop
  case step => exact fun _ _ => step_of_opField_00

end Sys2Proof.Machine
end

section
/-! `SIG` (spec/44_signal.md): its EXECUTE phase with and without a registered handler (R93, R104), the halt handler's
call and its registration (R98), and the obligation O44. -/

namespace Sys2Proof.Machine

variable {s : State} {c : Byte} {h : Handler}

/-- `SIG` of a registered code ends as its handler's call does (R93, R96). -/
theorem exec_sig_of_handler_eq_some (hc : s.handler c = some h) :
    exec (.sig c) s = signalResult c (callHandler h s) := by
  simp only [exec, execSig, hc]

/-- `SIG` of a code with no handler faults and writes nothing (R104). -/
theorem exec_sig_of_handler_eq_none (hc : s.handler c = none) : exec (.sig c) s = .fault (.unknownSignal c s) := by
  simp only [exec, execSig, hc]

/-- The halt handler returns `Ok`, with the halt flag as its only write (R98). -/
theorem callHandler_haltHandler (s : State) : callHandler haltHandler s = (s.withHalt true, none) := rfl

/-- The halt profile registers the halt handler at the halt code (R98, R95). -/
theorem withHaltProfile_handler_haltCode (s : State) : s.withHaltProfile.handler Config.haltCode = some haltHandler := by
  rw [State.withHaltProfile, handler_defineHandler, if_pos rfl]

/-- `SIG` of any code the halt handler is registered at sets the halt flag and nothing else (R98). -/
theorem exec_sig_of_handler_eq_haltHandler (hc : s.handler c = some haltHandler) :
    exec (.sig c) s = .next (s.withHalt true) :=
  calc exec (.sig c) s
      _ = signalResult c (callHandler haltHandler s) := exec_sig_of_handler_eq_some hc
      _ = signalResult c (s.withHalt true, none) := by rw [callHandler_haltHandler]
      _ = .next (s.withHalt true) := rfl

/-- Settles O44: the halt profile's registration, the halt handler's call under any code, and the unregistered halt
code. -/
theorem haltHandlerSetsTheHaltFlag : Obligations.HaltHandlerSetsTheHaltFlag := by
  refine ⟨?registration, ?registered, ?unregistered⟩
  case registration => exact withHaltProfile_handler_haltCode
  case registered => exact fun _ _ => exec_sig_of_handler_eq_haltHandler
  case unregistered => exact fun _ => exec_sig_of_handler_eq_none

end Sys2Proof.Machine
end

section
/-! How a step comes to each fault (spec/60_exceptions.md R101 to R108): the step of each operator byte, what EXECUTE of
the stack instructions raises, and the obligations O18 to O23 and O25. Each is an exact characterisation: the fault names
its only causes by `StepOutcome`, and a step with that cause is computed to the fault. -/

namespace Sys2Proof

/-- An illegal operator byte decodes to the error that carries it (spec/30_encoding.md R61). -/
theorem decode_of_lo_illegal {w : Word} (h : wordLo w = 0x04 ∨ 6 ≤ (wordLo w).toNat) :
    decode w = .error (.unknownOperator (wordLo w)) := by
  rcases decode_cases w with ⟨e, -⟩ | ⟨e, -⟩ | ⟨e, -⟩ | ⟨e, -⟩ | ⟨e, -⟩ | ⟨e, -⟩ | ⟨-, hd⟩
  case inr.inr.inr.inr.inr.inr => exact hd
  all_goals
    rw [e] at h
    exact absurd h (by decide)

/-- A register field below 8 is some register's ordinal (spec/10_state.md R11). -/
theorem exists_eq_field_of_lt {f : BitVec 4} (h : f.toNat < 8) : ∃ r : Register, f = r.field := by
  cases hr : Register.ofField f with
  | some r => exact ⟨r, field_of_ofField hr⟩
  | none => exact absurd (ofField_eq_none_iff.1 hr) (Nat.not_le_of_lt h)

end Sys2Proof

namespace Sys2Proof.Machine

section
variable {s : State} {w : Word} {f : Fault}

/-- A fault that a step raised is one of the ways a step can end. -/
theorem stepOutcome_of_step_eq_fault (h : step s = .fault f) : StepOutcome s (.fault f) :=
  h ▸ step_outcome s

/-- A step whose word does not lie inside memory ends in FETCH (R71, R101). -/
theorem step_of_size_le_pc (h : s.mem.size ≤ (s.get .pc).toNat + 1) : step s = .fault (.fetchFault (s.get .pc) s) :=
  step_of_fetch_error (fetch_of_read2_eq_none (read2_eq_none_iff.2 h))

/-- A step on an illegal operator byte ends in DECODE (R73, R102). -/
theorem step_of_opField_illegal (hw : s.fetches w) (hop : opField w = 0x04 ∨ 6 ≤ (opField w).toNat) :
    step s = .fault (.unknownOperator (opField w) s.advanced) :=
  step_of_decodePhase_error hw (decodePhase_of_unknownOperator (decode_of_lo_illegal hop))

/-- A step on a `POP` word with an illegal register field ends in DECODE (R73, R103). -/
theorem step_of_regField_illegal (hw : s.fetches w) (hop : opField w = 0x02) (hr : 8 ≤ (regField w).toNat) :
    step s = .fault (.unknownRegister (regField w) s.advanced) :=
  step_of_decodePhase_error hw (decodePhase_of_unknownRegister (decode_of_lo_02_of_eight_le_reg hop hr))

/-- A step on operator byte 0x01 executes `PUSH` (R57, R74). -/
theorem step_of_opField_01 (hw : s.fetches w) (hop : opField w = 0x01) :
    step s = exec (.push (argField w)) s.advanced :=
  step_of_decodePhase_ok hw (decodePhase_of_ok (decode_of_lo_01 hop))

/-- A step on operator byte 0x02 with a register's ordinal executes `POP` into it (R58, R74). -/
theorem step_of_opField_02 {r : Register} (hw : s.fetches w) (hop : opField w = 0x02) (hr : regField w = r.field) :
    step s = exec (.pop r) s.advanced :=
  step_of_decodePhase_ok hw (decodePhase_of_ok (decode_of_lo_02_of_reg_eq_field hop hr))

/-- A step on operator byte 0x03 executes `ADDS` (R59, R74). -/
theorem step_of_opField_03 (hw : s.fetches w) (hop : opField w = 0x03) : step s = exec .adds s.advanced :=
  step_of_decodePhase_ok hw (decodePhase_of_ok (decode_of_lo_03 hop))

/-- A step on operator byte 0x05 executes `SIG` (R60, R74). -/
theorem step_of_opField_05 (hw : s.fetches w) (hop : opField w = 0x05) :
    step s = exec (.sig (argField w)) s.advanced :=
  step_of_decodePhase_ok hw (decodePhase_of_ok (decode_of_lo_05 hop))

/-- `PUSH` whose cell does not lie inside memory raises `StackWriteFault` (R75, R105). -/
theorem exec_push_of_size_le {l : Byte} (h : s.mem.size ≤ (s.get .sp).toNat + 1) :
    exec (.push l) s = .fault (.stackWriteFault (s.get .sp) s) := by
  rcases execPush_cases l s with ⟨hfits, -⟩ | ⟨-, e⟩
  · exact absurd hfits (Nat.not_lt_of_le h)
  · exact e

/-- `POP` with SP above the memory size raises `StackReadFault` (R76, R106). -/
theorem exec_pop_of_size_lt {r : Register} (h2 : 2 ≤ (s.get .sp).toNat) (h : s.mem.size < (s.get .sp).toNat) :
    exec (.pop r) s = .fault (.stackReadFault (s.get .sp - 2) s) := by
  rcases execPop_cases r s with ⟨hlow, -⟩ | ⟨-, -, e⟩ | ⟨-, hfits, -⟩
  · exact absurd hlow (Nat.not_lt_of_le h2)
  · exact e
  · exact absurd hfits (Nat.not_le_of_lt h)

/-- The first pop of `ADDS` with SP above the memory size raises `StackReadFault` (R90, R106). -/
theorem exec_adds_of_size_lt (h2 : 2 ≤ (s.get .sp).toNat) (h : s.mem.size < (s.get .sp).toNat) :
    exec .adds s = .fault (.stackReadFault (s.get .sp - 2) s) := by
  rcases execAdds_cases s with ⟨hlow, -⟩ | ⟨-, -, e⟩ | ⟨-, -, hfits, -⟩ | ⟨-, hfits, -⟩
  · exact absurd hlow (Nat.not_lt_of_le h2)
  · exact e
  · exact absurd hfits (Nat.not_le_of_lt h)
  · exact absurd hfits (Nat.not_le_of_lt h)

/-- A step of `PUSH` whose cell does not lie inside memory (R105). -/
theorem step_of_push_of_size_le (hw : s.fetches w) (hop : opField w = 0x01)
    (h : s.mem.size ≤ (s.get .sp).toNat + 1) : step s = .fault (.stackWriteFault (s.get .sp) s.advanced) := by
  simpa using (step_of_opField_01 hw hop).trans (exec_push_of_size_le (by simpa using h))

/-- A step of either instruction that pops, with SP above the memory size (R106). -/
theorem step_of_pops_of_size_lt (hw : s.fetches w)
    (hop : opField w = 0x02 ∧ (regField w).toNat < 8 ∨ opField w = 0x03)
    (h2 : 2 ≤ (s.get .sp).toNat) (h : s.mem.size < (s.get .sp).toNat) :
    step s = .fault (.stackReadFault (s.get .sp - 2) s.advanced) := by
  rcases hop with ⟨hpop, hlt⟩ | hadds
  · obtain ⟨r, hr⟩ := exists_eq_field_of_lt hlt
    simpa using (step_of_opField_02 hw hpop hr).trans (exec_pop_of_size_lt (by simpa using h2) (by simpa using h))
  · simpa using (step_of_opField_03 hw hadds).trans (exec_adds_of_size_lt (by simpa using h2) (by simpa using h))

/-- A step of `SIG` with no handler for its code (R104). -/
theorem step_of_sig_of_handler_eq_none (hw : s.fetches w) (hop : opField w = 0x05)
    (hn : s.handler (argField w) = none) : step s = .fault (.unknownSignal (argField w) s.advanced) :=
  (step_of_opField_05 hw hop).trans (exec_sig_of_handler_eq_none (by simpa using hn))

/-- A step of `SIG` whose handler returns `Err` (R96, R108). -/
theorem step_of_sig_of_callHandler_eq_err {h : Handler} {t : State} {msg : String} (hw : s.fetches w)
    (hop : opField w = 0x05) (hh : s.handler (argField w) = some h)
    (hc : callHandler h s.advanced = (t, some msg)) : step s = .fault (.handlerError (argField w) msg t) :=
  calc step s
      _ = exec (.sig (argField w)) s.advanced := step_of_opField_05 hw hop
      _ = signalResult (argField w) (callHandler h s.advanced) := exec_sig_of_handler_eq_some (by simpa using hh)
      _ = signalResult (argField w) (t, some msg) := by rw [hc]
      _ = .fault (.handlerError (argField w) msg t) := rfl

end

/-- Settles O18: FETCH is the only phase that raises it, and raises it where the word lies outside memory. -/
theorem fetchFaultExactlyWhenWordOutsideMemory : Obligations.FetchFaultExactlyWhenWordOutsideMemory := by
  intro s t a
  constructor
  · intro h
    cases stepOutcome_of_step_eq_fault h with
    | fetchFault hpc => exact ⟨hpc, rfl, rfl⟩
  · rintro ⟨hpc, rfl, rfl⟩
    exact step_of_size_le_pc hpc

/-- Settles O19: only DECODE raises it, on the operator bytes that the decoder answers with that error. -/
theorem unknownOperatorExactlyOnIllegalOperator : Obligations.UnknownOperatorExactlyOnIllegalOperator := by
  intro s t b
  constructor
  · intro h
    cases stepOutcome_of_step_eq_fault h with
    | unknownOperator w hw hop => exact ⟨⟨w, hw, rfl⟩, hop, rfl⟩
  · rintro ⟨⟨w, hw, rfl⟩, hop, rfl⟩
    exact step_of_opField_illegal hw hop

/-- Settles O20: only DECODE raises it, on the register fields of a `POP` word that name no register. -/
theorem unknownRegisterExactlyOnIllegalField : Obligations.UnknownRegisterExactlyOnIllegalField := by
  intro s t f
  constructor
  · intro h
    cases stepOutcome_of_step_eq_fault h with
    | unknownRegister w hw hop hr => exact ⟨⟨w, hw, hop, rfl⟩, hr, rfl⟩
  · rintro ⟨⟨w, hw, hop, rfl⟩, hr, rfl⟩
    exact step_of_regField_illegal hw hop hr

/-- Settles O21: only `SIG` raises it; ADVANCE leaves the signal table as it was. -/
theorem unknownSignalExactlyWhenNoHandler : Obligations.UnknownSignalExactlyWhenNoHandler := by
  intro s t c
  constructor
  · intro h
    cases stepOutcome_of_step_eq_fault h with
    | unknownSignal w hw hop hn => exact ⟨⟨w, hw, hop, rfl⟩, hn, rfl⟩
  · rintro ⟨⟨w, hw, hop, rfl⟩, hn, rfl⟩
    exact step_of_sig_of_handler_eq_none hw hop hn

/-- Settles O22: only `PUSH` raises it, because the store of `ADDS` goes to a cell it has just popped. -/
theorem stackWriteFaultExactlyOnPushAtMemoryEnd : Obligations.StackWriteFaultExactlyOnPushAtMemoryEnd := by
  intro s t a
  constructor
  · intro h
    cases stepOutcome_of_step_eq_fault h with
    | pushFault w hw hop hsp => exact ⟨⟨w, hw, hop⟩, hsp, rfl, rfl⟩
  · rintro ⟨⟨w, hw, hop⟩, hsp, rfl, rfl⟩
    exact step_of_push_of_size_le hw hop hsp

/-- Settles O23: `POP` and the first pop of `ADDS` raise it; the second pop reads below a cell that lies inside
memory. -/
theorem stackReadFaultExactlyOnPopAboveMemory : Obligations.StackReadFaultExactlyOnPopAboveMemory := by
  intro s t a
  constructor
  · intro h
    cases stepOutcome_of_step_eq_fault h with
    | popFault w hw hop r hr h2 hsp => exact ⟨⟨w, hw, .inl ⟨hop, hr ▸ field_lt r⟩⟩, h2, hsp, rfl, rfl⟩
    | addsFault w hw hop h2 hsp => exact ⟨⟨w, hw, .inr hop⟩, h2, hsp, rfl, rfl⟩
  · rintro ⟨⟨w, hw, hop⟩, h2, hsp, rfl, rfl⟩
    exact step_of_pops_of_size_lt hw hop h2 hsp

/-- Settles O25: only `SIG` raises it, with the message and the state that the handler's call ends in. -/
theorem handlerErrorExactlyWhenHandlerFails : Obligations.HandlerErrorExactlyWhenHandlerFails := by
  intro s t c msg
  constructor
  · intro h
    cases stepOutcome_of_step_eq_fault h with
    | handlerError w hw hop g _ _ hg hc => exact ⟨⟨w, hw, hop, rfl⟩, g, hg, hc⟩
  · rintro ⟨⟨w, hw, hop, rfl⟩, g, hg, hc⟩
    exact step_of_sig_of_callHandler_eq_err hw hop hg hc

end Sys2Proof.Machine
end

section
/-! What a failed step leaves (spec/60_exceptions.md R111): the frame of ADVANCE, which all faults of the later phases
share but for what a handler or the first pop of `ADDS` did, and the obligation O27. -/

namespace Sys2Proof.Machine

/-- ADVANCE moves PC on and leaves everything else (R72). -/
theorem advanced_frame (s : State) :
    s.advanced.get .pc = s.get .pc + 2 ∧ s.advanced.mem = s.mem ∧ s.advanced.halt = s.halt ∧
      s.advanced.sig = s.sig ∧ s.advanced.hostCalls = s.hostCalls ∧ ∀ r, r ≠ .pc → s.advanced.get r = s.get r :=
  ⟨get_set_self .., set_mem .., set_halt .., set_sig .., set_hostCalls .., fun _ => get_set_of_ne _ _ _ _⟩

/-- ADVANCE followed by a write of SP moves those two registers and leaves everything else (R72, R76). -/
theorem advanced_set_sp_frame (s : State) (v : Word) :
    (s.advanced.set .sp v).get .pc = s.get .pc + 2 ∧ (s.advanced.set .sp v).mem = s.mem ∧
      (s.advanced.set .sp v).halt = s.halt ∧ (s.advanced.set .sp v).sig = s.sig ∧
      (s.advanced.set .sp v).hostCalls = s.hostCalls ∧
      ∀ r, r ≠ .pc → r ≠ .sp → (s.advanced.set .sp v).get r = s.get r :=
  ⟨by simp, by simp, by simp, by simp, by simp, fun r hpc hsp => by simp [hpc, hsp]⟩

/-- The second pop of `ADDS` underflows only where SP was 2 or 3 (R90, R107). -/
theorem eq_two_or_eq_three {v : Word} (h2 : 2 ≤ v.toNat) (h4 : v.toNat < 4) : v = 2 ∨ v = 3 := by
  bv_omega

/-- Settles O27: after FETCH every fault leaves ADVANCE's state, but for the handler's and for the second pop of `ADDS`,
which comes after the first has moved SP. -/
theorem failedStepLeavesThePartialState : Obligations.FailedStepLeavesThePartialState := by
  intro s f h
  cases stepOutcome_of_step_eq_fault h
  case fetchFault => exact ⟨rfl, rfl⟩
  case handlerError g _ _ hg hc => exact ⟨g, hg, hc⟩
  case popUnderflow hsp | addsUnderflow hsp =>
    obtain ⟨hpc, hmem, hhalt, hsig, hcalls, hregs⟩ := advanced_frame s
    have hkept : s.advanced.get .sp = s.get .sp := hregs .sp (by decide)
    exact ⟨hpc, hmem, hhalt, hsig, hcalls, fun r hr _ => hregs r hr, hkept.symm, hsp, .inl hkept⟩
  case addsSecondUnderflow w hw hop h2 h4 _ =>
    obtain ⟨hpc, hmem, hhalt, hsig, hcalls, hregs⟩ := advanced_set_sp_frame s (s.get .sp - 2)
    have hmoved : (s.advanced.set .sp (s.get .sp - 2)).get .sp = s.get .sp - 2 := get_set_self ..
    have hlow : (s.get .sp - 2).toNat < 2 := by rw [sub_two_toNat h2]; omega
    exact ⟨hpc, hmem, hhalt, hsig, hcalls, hregs, hmoved.symm, hlow,
      .inr ⟨eq_two_or_eq_three h2 h4, hmoved, w, hw, hop⟩⟩
  case unknownOperator | unknownRegister | unknownSignal => exact ⟨nofun, nofun, advanced_frame s⟩
  case pushFault => exact ⟨fun _ _ e => by cases e; rfl, nofun, advanced_frame s⟩
  case popFault | addsFault => exact ⟨nofun, fun _ _ e => by cases e; rfl, advanced_frame s⟩

end Sys2Proof.Machine
end

section
/-! The decoder and the encoder against each other (spec/30_encoding.md section 6), the words the decoder rejects
(R61, R62), the bits it ignores (R63), and the obligations O13, O10, O14, O11, O12 and O15. -/

namespace Sys2Proof

section
variable {w w' : Word} {i : Instr} {lo hi : Byte}

/-- A word is known by its two bytes (R36). -/
theorem wordOfBytes_eq_iff_bytes : wordOfBytes lo hi = w ↔ wordLo w = lo ∧ wordHi w = hi := by
  constructor
  · rintro rfl
    exact ⟨wordLo_wordOfBytes lo hi, wordHi_wordOfBytes lo hi⟩
  · rintro ⟨rfl, rfl⟩
    exact wordOfBytes_lo_hi w

/-- The operand byte of a `POP` word is the zero-extended register field exactly when the bits above the field are 0. -/
theorem wordHi_eq_setWidth_wordReg_iff : wordHi w = (wordReg w).setWidth 8 ↔ Machine.padField w = 0 := by
  rw [← BitVec.toNat_inj, ← BitVec.toNat_inj]
  simp only [wordHi, wordReg, BitVec.extractLsb'_toNat, BitVec.toNat_setWidth, Nat.shiftRight_eq_div_pow,
    BitVec.ofNat_eq_ofNat, BitVec.toNat_ofNat]
  omega

/-- The constructors with a canonical word are the well-formed ones (R65). -/
theorem wellFormed_eq_isSome_encode (i : Instr) : i.wellFormed = (encode i).isSome := by
  cases i with
  | nop => exact Laws.Encodable.nop
  | push l => exact Laws.Encodable.push l
  | pop r => exact Laws.Encodable.pop r
  | adds => exact Laws.Encodable.adds
  | addr dst src => exact Laws.Encodable.addr dst src
  | sig c => exact Laws.Encodable.sig c

/-- The canonical word of an instruction decodes to it (R65). -/
theorem decode_of_encode_eq_some (h : encode i = some w) : decode w = .ok i := by
  cases i with
  | nop => cases h; exact decode_of_lo_00 rfl
  | push l => cases h; rw [decode_of_lo_01 (wordLo_wordOfBytes ..), wordHi_wordOfBytes]
  | pop r =>
    cases h
    exact decode_of_lo_02_of_reg_eq_field (wordLo_wordOfBytes ..) (wordReg_wordOfBytes_field ..)
  | adds => cases h; exact decode_of_lo_03 rfl
  | addr dst src => cases h
  | sig c => cases h; rw [decode_of_lo_05 (wordLo_wordOfBytes ..), wordHi_wordOfBytes]

/-- An unknown operator is one of the illegal operator bytes (R61). -/
theorem lo_illegal_of_decode {b : Byte} (h : decode w = .error (.unknownOperator b)) :
    wordLo w = b ∧ (b = 0x04 ∨ 6 ≤ b.toNat) := by
  rcases decode_cases w with ⟨-, e⟩ | ⟨-, e⟩ | ⟨-, r, -, e⟩ | ⟨-, -, e⟩ | ⟨-, e⟩ | ⟨-, e⟩ | ⟨hlo, e⟩ <;>
    rw [h] at e <;> cases e
  exact ⟨rfl, hlo⟩

/-- An unknown register is a field of 8 or more in a `POP` word (R62). -/
theorem reg_illegal_of_decode {f : BitVec 4} (h : decode w = .error (.unknownRegister f)) :
    wordLo w = 0x02 ∧ wordReg w = f ∧ 8 ≤ f.toNat := by
  rcases decode_cases w with ⟨-, e⟩ | ⟨-, e⟩ | ⟨-, r, -, e⟩ | ⟨hlo, hreg, e⟩ | ⟨-, e⟩ | ⟨-, e⟩ | ⟨-, e⟩ <;>
    rw [h] at e <;> cases e
  exact ⟨hlo, rfl, hreg⟩

/-- What the decoder answers has an encoding (R92). -/
theorem wellFormed_of_decode (h : decode w = .ok i) : i.wellFormed = true := by
  rcases decode_cases w with ⟨-, e⟩ | ⟨-, e⟩ | ⟨-, r, -, e⟩ | ⟨-, -, e⟩ | ⟨-, e⟩ | ⟨-, e⟩ | ⟨-, e⟩ <;>
    rw [h] at e <;> cases e <;> rfl

/-- Outside `PUSH`, `POP` and `SIG` the operator byte alone decides (R63). -/
theorem decode_eq_of_lo_eq (h : wordLo w = wordLo w') (h1 : wordLo w ≠ 0x01) (h2 : wordLo w ≠ 0x02)
    (h5 : wordLo w ≠ 0x05) : decode w = decode w' := by
  rcases decode_cases w with ⟨hlo, e⟩ | ⟨hlo, -⟩ | ⟨hlo, -⟩ | ⟨hlo, -⟩ | ⟨hlo, e⟩ | ⟨hlo, -⟩ | ⟨hlo, e⟩
  case inl => rw [e, decode_of_lo_00 (h ▸ hlo)]
  case inr.inr.inr.inr.inl => rw [e, decode_of_lo_03 (h ▸ hlo)]
  case inr.inr.inr.inr.inr.inr => rw [e, h, decode_of_lo_illegal (h ▸ hlo)]
  case inr.inl => exact absurd hlo h1
  case inr.inr.inl | inr.inr.inr.inl => exact absurd hlo h2
  case inr.inr.inr.inr.inr.inl => exact absurd hlo h5

/-- In a `POP` word the register field alone decides (R63). -/
theorem decode_eq_of_reg_eq (h : wordLo w = 0x02) (h' : wordLo w' = 0x02) (hr : wordReg w = wordReg w') :
    decode w = decode w' := by
  rw [decode_of_lo_02 h, decode_of_lo_02 h', decodePop, decodePop, hr]

end

end Sys2Proof

namespace Sys2Proof.Machine

/-- Settles O13: a well-formed instruction has a canonical word, and the decoder inverts the encoder on it. -/
theorem decodeOfEncodeIsTheInstruction : Obligations.DecodeOfEncodeIsTheInstruction := by
  intro i hi
  obtain ⟨w, hw⟩ := Option.isSome_iff_exists.1 (wellFormed_eq_isSome_encode i ▸ hi)
  exact ⟨w, hw, decode_of_encode_eq_some hw⟩

/-- Settles O10: each error names its cause, and the decoder answers that cause with that error. -/
theorem illegalWordsAreRejectedByName : Obligations.IllegalWordsAreRejectedByName := by
  refine fun w => ⟨fun b => ⟨lo_illegal_of_decode, ?_⟩, fun f => ⟨reg_illegal_of_decode, ?_⟩⟩
  · rintro ⟨rfl, hb⟩
    exact decode_of_lo_illegal hb
  · rintro ⟨hop, rfl, hf⟩
    exact decode_of_lo_02_of_eight_le_reg hop hf

/-- Settles O14: the encoder's word has the decoded word's operator byte, so the two differ in the operand byte at
most, and there in the bits that decoding ignored. -/
theorem encodeOfDecodeIsTheWordIffCanonical : Obligations.EncodeOfDecodeIsTheWordIffCanonical := by
  intro w i hd
  rw [opField_eq, argField_eq]
  rcases decode_cases w with ⟨hlo, e⟩ | ⟨hlo, e⟩ | ⟨hlo, r, hr, e⟩ | ⟨-, -, e⟩ | ⟨hlo, e⟩ | ⟨hlo, e⟩ | ⟨-, e⟩ <;>
    rw [hd] at e <;> cases e
  case inl =>
    have henc : encode .nop = some (wordOfBytes 0x00 0x00) := rfl
    simp [henc, wordOfBytes_eq_iff_bytes, hlo]
  case inr.inl | inr.inr.inr.inr.inr.inl => simp [encode, wordOfBytes_eq_iff_bytes, hlo]
  case inr.inr.inl =>
    simp [encode, wordOfBytes_eq_iff_bytes, hlo, ← hr, wordHi_eq_setWidth_wordReg_iff]
  case inr.inr.inr.inr.inl =>
    have henc : encode .adds = some (wordOfBytes 0x03 0x00) := rfl
    simp [henc, wordOfBytes_eq_iff_bytes, hlo]

/-- Settles O11: the decoder's answer is a function of the operator byte, or of the register field of a `POP` word. -/
theorem unexaminedBitsAreIgnored : Obligations.UnexaminedBitsAreIgnored :=
  fun _ _ h => ⟨decode_eq_of_lo_eq h, fun hop => decode_eq_of_reg_eq hop (h.symm.trans hop)⟩

/-- Settles O12: what decodes has an encoding, which `AddRegister` has not; and 0x04 is an illegal operator byte. -/
theorem noWordDecodesToAddRegister : Obligations.NoWordDecodesToAddRegister := by
  constructor
  · intro w i hd
    refine ⟨wellFormed_of_decode hd, ?_⟩
    rintro dst src rfl
    cases wellFormed_of_decode hd
  · intro w hop
    rw [decode_of_lo_illegal (.inl hop), show wordLo w = 0x04 from hop]

/-- Settles O15: the decoder evaluated on the nine words. -/
theorem writtenOutWordsDecode : Obligations.WrittenOutWordsDecode :=
  ⟨rfl, rfl, rfl, rfl, rfl, rfl, rfl, rfl, rfl⟩

end Sys2Proof.Machine
end

section
/-! The 2-byte operations and the load as byte operations (spec/20_memory.md R33 to R36, R48), and the obligations O6,
O7 and O8. -/

namespace Sys2Proof

/-- Two bytes as a word: the low byte, or the high byte moved up (R36). -/
theorem wordOfBytes_eq_or (lo hi : Byte) : wordOfBytes lo hi = lo.setWidth 16 ||| hi.setWidth 16 <<< 8 := by
  rw [wordOfBytes, BitVec.append_def, BitVec.or_comm, BitVec.setWidth'_eq, BitVec.shiftLeftZeroExtend_eq]

end Sys2Proof

namespace Sys2Proof.Machine

section
variable {m m' : Memory} {a b : Nat} {v u : Word} {bytes : List Byte}

/-- The low byte just written reads back at the address (R34, R36). -/
theorem read1_write2_lo (hm : m.wf) (h : m.write2 a v = some m') : m'.read1 a = some (wordLo v) := by
  have ha := (write2_eq_some_iff.1 h).1
  refine read1_eq_some_iff.2 ⟨by rw [write2_size h]; omega, ?_⟩
  rw [peek_write2 hm h, if_neg (by omega), if_pos rfl]

/-- The high byte just written reads back at the address above (R34, R36). -/
theorem read1_write2_hi (hm : m.wf) (h : m.write2 a v = some m') : m'.read1 (a + 1) = some (wordHi v) := by
  refine read1_eq_some_iff.2 ⟨by rw [write2_size h]; exact (write2_eq_some_iff.1 h).1, ?_⟩
  rw [peek_write2 hm h, if_pos rfl]

/-- A cell apart from the one written reads as before (R34). -/
theorem read2_write2_of_disjoint (hm : m.wf) (h : m.write2 a v = some m') (hd : a + 2 ≤ b ∨ b + 2 ≤ a) :
    m'.read2 b = m.read2 b := by
  have hlo : m'.peek b = m.peek b := by rw [peek_write2 hm h, if_neg (by omega), if_neg (by omega)]
  have hhi : m'.peek (b + 1) = m.peek (b + 1) := by rw [peek_write2 hm h, if_neg (by omega), if_neg (by omega)]
  simp only [Memory.read2, write2_size h, hlo, hhi]

/-- A 2-byte write is the write of its low byte and then of its high byte (R48). -/
theorem write1_bind_write1_of_write2 (h : m.write2 a v = some m') :
    (m.write1 a (wordLo v)).bind (fun m₁ => m₁.write1 (a + 1) (wordHi v)) = some m' := by
  obtain ⟨ha, rfl⟩ := write2_eq_some_iff.1 h
  rw [write1_eq_some_iff.2 ⟨by omega, rfl⟩]
  exact write1_eq_some_iff.2 ⟨ha, rfl⟩

/-- The cell at the address above the one written begins with the high byte written (R48). -/
theorem wordLo_read2_succ_of_write2 (hm : m.wf) (h : m.write2 a v = some m') (hu : m'.read2 (a + 1) = some u) :
    wordLo u = wordHi v := by
  rw [(read2_eq_some_iff.1 hu).2, wordLo_wordOfBytes, peek_write2 hm h, if_pos rfl]

/-- `load` succeeds exactly where the bytes fit, and then writes them all (R35). -/
theorem load_eq_some_iff : m.load bytes a = some m' ↔ a + bytes.length ≤ m.size ∧ m' = m.pokes a bytes := by
  simp only [Memory.load]; split <;> simp_all [eq_comm]

theorem load_eq_none_iff : m.load bytes a = none ↔ m.size < a + bytes.length := by
  simp [Memory.load]

theorem load_size (h : m.load bytes a = some m') : m'.size = m.size := by
  rw [(load_eq_some_iff.1 h).2, pokes_size]

/-- Every byte after a load: the loaded bytes from `a` on, the rest as before (R35). -/
theorem read1_load (hm : m.wf) (h : m.load bytes a = some m') :
    m'.read1 b = if a ≤ b ∧ b < a + bytes.length then bytes[b - a]? else m.read1 b := by
  obtain ⟨ha, rfl⟩ := load_eq_some_iff.1 h
  simp only [Memory.read1, pokes_size, peek_pokes hm ha]
  by_cases hin : a ≤ b ∧ b < a + bytes.length
  · have hlt : b - a < bytes.length := by omega
    rw [if_pos (by omega), if_pos hin, if_pos hin.1, List.getElem?_eq_getElem hlt, Option.getD_some]
  · rw [if_neg hin]
    by_cases hab : a ≤ b
    · rw [if_pos hab, List.getElem?_eq_none (by omega), Option.getD_none]
    · rw [if_neg hab]

end

/-- Settles O6: in range the write answers a memory, whose reads are the rules above. -/
theorem halfwordWriteIsAllOrNothing : Obligations.HalfwordWriteIsAllOrNothing := by
  refine fun m a v hm => ⟨fun ha => ?_, write2_eq_none_iff.2⟩
  have hw : m.write2 a v = some _ := write2_eq_some_iff.2 ⟨ha, rfl⟩
  exact ⟨_, hw, write2_size hw, read1_write2_lo hm hw, read1_write2_hi hm hw, read2_write2 hm hw,
    fun _ => read1_write2_of_ne hm hw⟩

/-- Settles O7: the 2-byte read is O5 with the word put together from its bytes; the 2-byte write is two byte writes. -/
theorem halfwordAccessesAreByteAccesses : Obligations.HalfwordAccessesAreByteAccesses := by
  refine fun m a hm => ⟨fun v hv => ?_, fun v m' hw =>
    ⟨write1_bind_write1_of_write2 hw, fun u => wordLo_read2_succ_of_write2 hm hw⟩⟩
  obtain ⟨-, lo, hi, hlo, hhi, hnum⟩ := (halfwordReadIsTwoBytes m a v).1 hv
  exact ⟨lo, hi, hlo, hhi, (eq_wordOfBytes_iff.2 hnum).trans (wordOfBytes_eq_or lo hi)⟩

/-- Settles O8: a load that fits is read back by `read1_load`, one address at a time. -/
theorem loadIsAllOrNothing : Obligations.LoadIsAllOrNothing := by
  refine fun m bytes a hm => ⟨fun ha => ?_, load_eq_none_iff.2⟩
  have hl : m.load bytes a = some _ := load_eq_some_iff.2 ⟨ha, rfl⟩
  refine ⟨_, hl, load_size hl, fun i hi => ?_, fun b hb => ?_⟩
  · rw [read1_load hm hl, if_pos ⟨by omega, by omega⟩, Nat.add_sub_cancel_left, List.getElem?_eq_getElem hi]
  · rw [read1_load hm hl, if_neg (by omega)]

end Sys2Proof.Machine
end

section
/-! EXECUTE of the stack instructions computed (spec/42_stack.md), and the converse of `step_outcome`: a way in which a
step may end is the way it ends. -/

namespace Sys2Proof.Machine

section
variable {s t : State} {o : Outcome} {v w a b : Word} {l : Byte} {r : Register} {m : Memory}

/-- A pop that reads a cell answers its value and moves SP below it (R76). -/
theorem pop16_of_read2 (h2 : 2 ≤ (s.get .sp).toNat) (hv : s.mem.read2 ((s.get .sp).toNat - 2) = some v) :
    pop16 s = .ok (v, s.set .sp (s.get .sp - 2)) := by
  have hin := (read2_eq_some_iff.1 hv).1
  rcases pop16_cases s with ⟨h, -⟩ | ⟨-, h, -⟩ | ⟨-, -, u, hu, e⟩
  · omega
  · omega
  · rw [e, Option.some.inj (hu.symm.trans hv)]

/-- A pop with SP 0 or 1 underflows (R76, R107). -/
theorem pop16_of_lt_two (h : (s.get .sp).toNat < 2) : pop16 s = .error (.stackUnderflow (s.get .sp) s) := by
  rcases pop16_cases s with ⟨-, e⟩ | ⟨h2, -⟩ | ⟨h2, -⟩
  · exact e
  · omega
  · omega

/-- A push whose store succeeds moves SP above the cell (R75). -/
theorem push16_of_write2 (hm : s.mem.write2 (s.get .sp).toNat v = some m) :
    push16 v s = .ok ((s.withMem m).set .sp (s.get .sp + 2)) := by
  simp only [push16, hm, nextCell_eq]

/-- `PUSH` whose store succeeds (R86). -/
theorem exec_push_of_write2 (hm : s.mem.write2 (s.get .sp).toNat (literalValue l) = some m) :
    exec (.push l) s = .next ((s.withMem m).set .sp (s.get .sp + 2)) := by
  simp only [exec, execPush, push16_of_write2 hm, finish]

/-- `POP` whose read succeeds: the target is written after SP (R87, R89). -/
theorem exec_pop_of_read2 (h2 : 2 ≤ (s.get .sp).toNat) (hv : s.mem.read2 ((s.get .sp).toNat - 2) = some v) :
    exec (.pop r) s = .next ((s.set .sp (s.get .sp - 2)).set r v) := by
  simp only [exec, execPop, pop16_of_read2 h2 hv]

/-- `POP` with SP 0 or 1 (R107). -/
theorem exec_pop_of_lt_two (h : (s.get .sp).toNat < 2) :
    exec (.pop r) s = .fault (.stackUnderflow (s.get .sp) s) := by
  simp only [exec, execPop, pop16_of_lt_two h]

/-- The first pop of `ADDS` with SP 0 or 1 (R90, R107). -/
theorem exec_adds_of_lt_two (h : (s.get .sp).toNat < 2) :
    exec .adds s = .fault (.stackUnderflow (s.get .sp) s) := by
  simp only [exec, execAdds, pop16_of_lt_two h]

/-- The second pop of `ADDS`, after a first that left SP 0 or 1 (R90, R107). -/
theorem exec_adds_of_lt_four (h2 : 2 ≤ (s.get .sp).toNat) (h4 : (s.get .sp).toNat < 4)
    (hsp : (s.get .sp).toNat ≤ s.mem.size) :
    exec .adds s = .fault (.stackUnderflow (s.get .sp - 2) (s.set .sp (s.get .sp - 2))) := by
  rcases execAdds_cases s with ⟨h, -⟩ | ⟨-, h, -⟩ | ⟨-, -, -, e⟩ | ⟨h, -⟩
  · omega
  · omega
  · exact e
  · omega

/-- `ADDS` with two cells below SP inside memory (R90). -/
theorem exec_adds_of_read2 (h4 : 4 ≤ (s.get .sp).toNat) (ha : s.mem.read2 ((s.get .sp).toNat - 2) = some a)
    (hb : s.mem.read2 ((s.get .sp).toNat - 4) = some b)
    (hm : s.mem.write2 ((s.get .sp).toNat - 4) (a + b) = some m) :
    exec .adds s = .next ((s.withMem m).set .sp (s.get .sp - 2)) := by
  have hin := (read2_eq_some_iff.1 ha).1
  rcases execAdds_cases s with ⟨h, -⟩ | ⟨-, h, -⟩ | ⟨-, h, -⟩ | ⟨-, -, a', b', m', ha', hb', hm', e⟩
  · omega
  · omega
  · omega
  · cases ha.symm.trans ha'
    cases hb.symm.trans hb'
    cases hm.symm.trans hm'
    exact e

/-- A step ends in any way that `StepOutcome` allows; with `step_outcome`, the two say the same. -/
theorem step_eq_of_stepOutcome (h : StepOutcome s o) : step s = o := by
  cases h with
  | fetchFault h => exact step_of_size_le_pc h
  | unknownOperator w hw hop => exact step_of_opField_illegal hw hop
  | unknownRegister w hw hop hr => exact step_of_regField_illegal hw hop hr
  | nop w hw hop => exact step_of_opField_00 hw hop
  | push w hw hop m hsp hm =>
    simpa using (step_of_opField_01 hw hop).trans (exec_push_of_write2 (s := s.advanced) (by simpa using hm))
  | pushFault w hw hop hsp => exact step_of_push_of_size_le hw hop hsp
  | pop w hw hop r hr v h2 hsp hv =>
    simpa using (step_of_opField_02 hw hop hr).trans
      (exec_pop_of_read2 (s := s.advanced) (by simpa using h2) (by simpa using hv))
  | popUnderflow w hw hop r hr hsp =>
    simpa using (step_of_opField_02 hw hop hr).trans (exec_pop_of_lt_two (s := s.advanced) (by simpa using hsp))
  | popFault w hw hop r hr h2 hsp => exact step_of_pops_of_size_lt hw (.inl ⟨hop, hr ▸ field_lt r⟩) h2 hsp
  | adds w hw hop a b m h4 hsp ha hb hm =>
    simpa using (step_of_opField_03 hw hop).trans (exec_adds_of_read2 (s := s.advanced)
      (by simpa using h4) (by simpa using ha) (by simpa using hb) (by simpa using hm))
  | addsUnderflow w hw hop hsp =>
    simpa using (step_of_opField_03 hw hop).trans (exec_adds_of_lt_two (s := s.advanced) (by simpa using hsp))
  | addsFault w hw hop h2 hsp => exact step_of_pops_of_size_lt hw (.inr hop) h2 hsp
  | addsSecondUnderflow w hw hop h2 h4 hsp =>
    simpa using (step_of_opField_03 hw hop).trans (exec_adds_of_lt_four (s := s.advanced)
      (by simpa using h2) (by simpa using h4) (by simpa using hsp))
  | unknownSignal w hw hop hn => exact step_of_sig_of_handler_eq_none hw hop hn
  | signal w hw hop h t hh hc =>
    calc step s
        _ = exec (.sig (argField w)) s.advanced := step_of_opField_05 hw hop
        _ = signalResult (argField w) (callHandler h s.advanced) := exec_sig_of_handler_eq_some (by simpa using hh)
        _ = .next t := by rw [hc]; rfl
  | handlerError w hw hop h t msg hh hc => exact step_of_sig_of_callHandler_eq_err hw hop hh hc

/-- An outcome that a step had is one of the ways a step can end. -/
theorem stepOutcome_of_step_eq (h : step s = o) : StepOutcome s o :=
  h ▸ step_outcome s

/-- Registers are told apart by their ordinals (R11). -/
theorem field_injective {r q : Register} (h : r.field = q.field) : r = q :=
  Option.some.inj (by rw [← ofField_field r, h, ofField_field])

end

end Sys2Proof.Machine
end

section
/-! Faults and the steps after them (spec/60_exceptions.md sections 1 and 5): obligations O24, O26, O28 and O29. -/

namespace Sys2Proof.Machine

section
variable {s t : State} {f : Fault} {a : Word} {w : Word}

/-- A step of either instruction that pops, with SP 0 or 1 (R107). -/
theorem step_of_pops_of_lt_two (hw : s.fetches w)
    (hop : opField w = 0x02 ∧ (regField w).toNat < 8 ∨ opField w = 0x03) (hsp : (s.get .sp).toNat < 2) :
    step s = .fault (.stackUnderflow (s.get .sp) s.advanced) := by
  rcases hop with ⟨hpop, hlt⟩ | hadds
  · obtain ⟨r, hr⟩ := exists_eq_field_of_lt hlt
    exact step_eq_of_stepOutcome (.popUnderflow w hw hpop r hr hsp)
  · exact step_eq_of_stepOutcome (.addsUnderflow w hw hadds hsp)

/-- A step of `ADDS` with one cell below SP (R90, R107). -/
theorem step_of_adds_of_eq_two_or_three (hw : s.fetches w) (hop : opField w = 0x03)
    (hsp : s.get .sp = 2 ∨ s.get .sp = 3) (hin : (s.get .sp).toNat ≤ s.mem.size) :
    step s = .fault (.stackUnderflow (s.get .sp - 2) (s.advanced.set .sp (s.get .sp - 2))) := by
  have hnum : (s.get .sp).toNat = 2 ∨ (s.get .sp).toNat = 3 := hsp.imp (congrArg BitVec.toNat) (congrArg BitVec.toNat)
  exact step_eq_of_stepOutcome (.addsSecondUnderflow w hw hop (by omega) (by omega) hin)

/-- The faults are numbered 1 to 8 (R100). -/
theorem fault_code_bounds (f : Fault) : 1 ≤ f.code ∧ f.code ≤ 8 := by
  cases f <;> simp [Fault.code]

/-- A host that steps without looking at the result goes on from what the failed step left (R113). -/
theorem stepAnyway_of_fault (h : step s = .fault f) : stepAnyway s = f.after := by
  simp only [stepAnyway, h]

/-- `FetchFault` leaves the Machine as it was (R111). -/
theorem stepAnyway_of_fetchFault (h : step s = .fault (.fetchFault a t)) : stepAnyway s = s := by
  obtain ⟨-, -, rfl⟩ := (fetchFaultExactlyWhenWordOutsideMemory s t a).1 h
  exact stepAnyway_of_fault h

/-- Every fault but `FetchFault` and `HandlerError` leaves PC advanced and the rest, SP aside, unchanged (R112). -/
theorem exists_after_eq_advanced_set_sp (h : step s = .fault f) (h1 : f.code ≠ 1) (h8 : f.code ≠ 8) :
    ∃ v, f.after = s.advanced.set .sp v := by
  cases stepOutcome_of_step_eq h
  case fetchFault => exact absurd rfl h1
  case handlerError => exact absurd rfl h8
  case addsSecondUnderflow => exact ⟨s.get .sp - 2, rfl⟩
  all_goals exact ⟨s.advanced.get .sp, (set_get_self s.advanced .sp).symm⟩

/-- A state from reset whose step raises the fault with each number (R100). -/
theorem exists_step_fault_of_code {k : Nat} (h1 : 1 ≤ k) (h8 : k ≤ 8) : ∃ s f, step s = .fault f ∧ f.code = k := by
  interval_cases k
  · exact ⟨State.reset.set .pc 0x1FFF, _, rfl, rfl⟩
  · exact ⟨State.reset.withFetchWord 16 0x0006, _, rfl, rfl⟩
  · exact ⟨State.reset.withFetchWord 16 0x0802, _, rfl, rfl⟩
  · exact ⟨State.reset.withFetchWord 16 0x0005, _, rfl, rfl⟩
  · exact ⟨(State.reset.set .sp 0x1FFF).withFetchWord 16 0x0001, _, rfl, rfl⟩
  · exact ⟨(State.reset.set .sp 0x2001).withFetchWord 16 0x0002, _, rfl, rfl⟩
  · exact ⟨State.reset.withFetchWord 16 0x0002, _, rfl, rfl⟩
  · exact ⟨(State.reset.defineHandler 0 (.script (.fail "no"))).withFetchWord 16 0x0005, _, rfl, rfl⟩

end

/-- Settles O24: a pop raises it before any access, and the second pop of `ADDS` after the first has moved SP. -/
theorem stackUnderflowExactlyOnPopBelowTwo : Obligations.StackUnderflowExactlyOnPopBelowTwo := by
  intro s t v
  constructor
  · intro h
    cases stepOutcome_of_step_eq h with
    | popUnderflow w hw hop r hr hsp => exact .inl ⟨⟨w, hw, .inl ⟨hop, hr ▸ field_lt r⟩⟩, hsp, rfl, rfl⟩
    | addsUnderflow w hw hop hsp => exact .inl ⟨⟨w, hw, .inr hop⟩, hsp, rfl, rfl⟩
    | addsSecondUnderflow w hw hop h2 h4 hsp =>
      exact .inr ⟨⟨w, hw, hop⟩, eq_two_or_eq_three h2 h4, hsp, rfl, rfl⟩
  · rintro (⟨⟨w, hw, hop⟩, hsp, rfl, rfl⟩ | ⟨⟨w, hw, hop⟩, hsp, hin, rfl, rfl⟩)
    · exact step_of_pops_of_lt_two hw hop hsp
    · exact step_of_adds_of_eq_two_or_three hw hop hsp hin

/-- Settles O26: no step is refused, the fault type has no ninth constructor, and each fault has a state that raises
it. -/
theorem stepAnswersOkOrOneOfEightFaults : Obligations.StepAnswersOkOrOneOfEightFaults := by
  refine ⟨fun _ _ _ _ _ => ⟨rfl, rfl, rfl, rfl, rfl, rfl, rfl, rfl⟩, fun s => ?_,
    fun _ => exists_step_fault_of_code⟩
  cases h : step s with
  | next t => exact .inl ⟨t, rfl⟩
  | fault f => exact .inr ⟨f, rfl, fault_code_bounds f⟩
  | refused r => exact absurd h (step_ne_refused s r)

/-- Settles O28: the state is a fixed point of the host's stepping. -/
theorem fetchFaultRepeatsForever : Obligations.FetchFaultRepeatsForever := by
  intro s t a n h
  have hfix : stepAnyway^[n] s = s := Function.iterate_fixed (stepAnyway_of_fetchFault h) n
  exact ⟨hfix, by rw [hfix, h]⟩

/-- Settles O29: what the failed step left has PC advanced and memory as it was, which is all a fetch looks at. -/
theorem otherFaultsSkipTheInstruction : Obligations.OtherFaultsSkipTheInstruction := by
  intro s f h h1 h8
  obtain ⟨v, hv⟩ := exists_after_eq_advanced_set_sp h h1 h8
  obtain ⟨hpc, hmem, -⟩ := advanced_set_sp_frame s v
  rw [← hv, ← stepAnyway_of_fault h] at hpc hmem
  refine ⟨hpc, ?_⟩
  rw [← hpc, ← hmem]
  split
  case h_1 w hw => exact fetch_of_fetches hw
  case h_2 hnone => exact fetch_of_read2_eq_none hnone

end Sys2Proof.Machine
end

section
/-! What a step does not look at (spec/40_step_cycle.md R78, R83). A change of the state that keeps memory, PC and SP,
and that commutes with what a step writes, is carried through every step but `SIG`'s; the halt flag and the registers
other than PC and SP are such changes. The obligations O30 and O31. -/

namespace Sys2Proof.Machine

/-- `g` keeps all that a step other than `SIG` reads, and commutes with the writes that every such step may make. -/
structure Unread (g : State → State) : Prop where
  mem : ∀ s, (g s).mem = s.mem
  pc : ∀ s, (g s).get .pc = s.get .pc
  sp : ∀ s, (g s).get .sp = s.get .sp
  set_pc : ∀ s v, (g s).set .pc v = g (s.set .pc v)
  set_sp : ∀ s v, (g s).set .sp v = g (s.set .sp v)
  withMem : ∀ s m, (g s).withMem m = g (s.withMem m)

/-- No step but `SIG`'s reads the halt flag (R78). -/
theorem unread_withHalt (b : Bool) : Unread (fun t => t.withHalt b) where
  mem _ := rfl
  pc s := withHalt_get s .pc b
  sp s := withHalt_get s .sp b
  set_pc s v := set_withHalt s .pc v b
  set_sp s v := set_withHalt s .sp v b
  withMem _ _ := rfl

/-- No step but `SIG`'s reads a register other than PC and SP (R83). -/
theorem unread_set {r : Register} (hpc : r ≠ .pc) (hsp : r ≠ .sp) (v : Word) : Unread (fun t => t.set r v) where
  mem s := set_mem s r v
  pc s := get_set_of_ne s r .pc v hpc.symm
  sp s := get_set_of_ne s r .sp v hsp.symm
  set_pc s u := set_set_of_ne s r .pc v u hpc.symm
  set_sp s u := set_set_of_ne s r .sp v u hsp.symm
  withMem s m := withMem_set s r v m

section
variable {s : State} {g : State → State} {o : Outcome}

/-- A change of what a step does not read is carried through to its outcome, if it also commutes with the write of the
target of a `POP` that succeeds. -/
theorem stepOutcome_map (hg : Unread g) (hsig : ∀ w, s.fetches w → opField w ≠ 0x05)
    (hpop : ∀ t, o = .next t → ∀ w r, s.fetches w → opField w = 0x02 → regField w = r.field →
      ∀ u v, (g u).set r v = g (u.set r v)) (h : StepOutcome s o) : StepOutcome (g s) (mapState g o) := by
  have hfetch : ∀ {w}, s.fetches w → (g s).fetches w := fun hw => by rwa [State.fetches, hg.mem, hg.pc]
  have hadv : (g s).advanced = g s.advanced := by rw [State.advanced, hg.pc, hg.set_pc]
  cases h with
  | fetchFault h =>
    simpa only [mapState, Fault.mapAfter, hg.pc] using StepOutcome.fetchFault (s := g s) (by rwa [hg.mem, hg.pc])
  | unknownOperator w hw hop =>
    simpa only [mapState, Fault.mapAfter, hadv] using StepOutcome.unknownOperator (s := g s) w (hfetch hw) hop
  | unknownRegister w hw hop hr =>
    simpa only [mapState, Fault.mapAfter, hadv] using StepOutcome.unknownRegister (s := g s) w (hfetch hw) hop hr
  | nop w hw hop => simpa only [mapState, hadv] using StepOutcome.nop (s := g s) w (hfetch hw) hop
  | push w hw hop m hsp hm =>
    simpa only [mapState, hadv, hg.sp, hg.withMem, hg.set_sp] using
      StepOutcome.push (s := g s) w (hfetch hw) hop m (by rwa [hg.sp, hg.mem]) (by rwa [hg.sp, hg.mem])
  | pushFault w hw hop hsp =>
    simpa only [mapState, Fault.mapAfter, hadv, hg.sp] using
      StepOutcome.pushFault (s := g s) w (hfetch hw) hop (by rwa [hg.sp, hg.mem])
  | pop w hw hop r hr v h2 hsp hv =>
    simpa only [mapState, hadv, hg.sp, hg.set_sp, hpop _ rfl w r hw hop hr] using
      StepOutcome.pop (s := g s) w (hfetch hw) hop r hr v (by rwa [hg.sp]) (by rwa [hg.sp, hg.mem])
        (by rwa [hg.sp, hg.mem])
  | popUnderflow w hw hop r hr hsp =>
    simpa only [mapState, Fault.mapAfter, hadv, hg.sp] using
      StepOutcome.popUnderflow (s := g s) w (hfetch hw) hop r hr (by rwa [hg.sp])
  | popFault w hw hop r hr h2 hsp =>
    simpa only [mapState, Fault.mapAfter, hadv, hg.sp] using
      StepOutcome.popFault (s := g s) w (hfetch hw) hop r hr (by rwa [hg.sp]) (by rwa [hg.sp, hg.mem])
  | adds w hw hop a b m h4 hsp ha hb hm =>
    simpa only [mapState, hadv, hg.sp, hg.withMem, hg.set_sp] using
      StepOutcome.adds (s := g s) w (hfetch hw) hop a b m (by rwa [hg.sp]) (by rwa [hg.sp, hg.mem])
        (by rwa [hg.sp, hg.mem]) (by rwa [hg.sp, hg.mem]) (by rwa [hg.sp, hg.mem])
  | addsUnderflow w hw hop hsp =>
    simpa only [mapState, Fault.mapAfter, hadv, hg.sp] using
      StepOutcome.addsUnderflow (s := g s) w (hfetch hw) hop (by rwa [hg.sp])
  | addsFault w hw hop h2 hsp =>
    simpa only [mapState, Fault.mapAfter, hadv, hg.sp] using
      StepOutcome.addsFault (s := g s) w (hfetch hw) hop (by rwa [hg.sp]) (by rwa [hg.sp, hg.mem])
  | addsSecondUnderflow w hw hop h2 h4 hsp =>
    simpa only [mapState, Fault.mapAfter, hadv, hg.sp, hg.set_sp] using
      StepOutcome.addsSecondUnderflow (s := g s) w (hfetch hw) hop (by rwa [hg.sp]) (by rwa [hg.sp])
        (by rwa [hg.sp, hg.mem])
  | unknownSignal w hw hop | signal w hw hop | handlerError w hw hop => exact absurd hop (hsig w hw)

/-- The step of the changed state is the step with its outcome changed. -/
theorem step_map (hg : Unread g) (hsig : ∀ w, s.fetches w → opField w ≠ 0x05)
    (hpop : ∀ t, step s = .next t → ∀ w r, s.fetches w → opField w = 0x02 → regField w = r.field →
      ∀ u v, (g u).set r v = g (u.set r v)) : step (g s) = mapState g (step s) :=
  step_eq_of_stepOutcome (stepOutcome_map hg hsig hpop (step_outcome s))

/-- A step is the same from a state whose register `r` was changed, if it is a successful `POP` into `r` (R83). -/
theorem step_set_of_pop_into {t : State} {r : Register} {w : Word} (hpc : r ≠ .pc) (hsp : r ≠ .sp) (v : Word)
    (hw : s.fetches w) (hop : opField w = 0x02) (hr : regField w = r.field) (h : step s = .next t) :
    step (s.set r v) = .next t := by
  have hg := unread_set hpc hsp v
  cases stepOutcome_of_step_eq h with
  | pop w' hw' hop' q hq u h2 hin hu =>
    cases fetches_unique hw hw'
    cases field_injective (hr.symm.trans hq)
    have hset := StepOutcome.pop (s := s.set r v) w (by rwa [State.fetches, hg.mem, hg.pc]) hop r hr u
      (by rwa [hg.sp]) (by rwa [hg.sp, hg.mem]) (by rwa [hg.sp, hg.mem])
    rw [State.advanced, hg.pc, hg.sp, hg.set_pc, hg.set_sp, set_set_self] at hset
    exact step_eq_of_stepOutcome hset
  | nop w' hw' hop' | push w' hw' hop' | adds w' hw' hop' | signal w' hw' hop' =>
    cases fetches_unique hw hw'
    exact absurd (hop.symm.trans hop') (by decide)

end

/-- Settles O30: the halt flag is not read, and every write commutes with it. -/
theorem stepDoesNotTestTheHaltFlag : Obligations.StepDoesNotTestTheHaltFlag :=
  fun _ b hsig => step_map (unread_withHalt b) hsig fun _ _ _ r _ _ _ u v => set_withHalt u r v b

/-- Settles O31: a register other than PC and SP is not read, and every write commutes with its write, but for the write
of that register by a successful `POP`, which overwrites it. -/
theorem stepReadsOnlyPcAndSp : Obligations.StepReadsOnlyPcAndSp := by
  refine fun s r v hpc hsp hsig => ⟨fun hother => ?_, fun ⟨w, hw, hop, hr⟩ => ⟨fun t => ?_, fun f hf => ?_⟩⟩
  · refine step_map (unread_set hpc hsp v) hsig fun _ _ w q hw hop hq u x => ?_
    have hne : q ≠ r := fun e => hother w hw ⟨hop, e ▸ hq⟩
    exact set_set_of_ne u r q v x hne
  · exact step_set_of_pop_into hpc hsp v hw hop hr
  · rw [step_map (unread_set hpc hsp v) hsig (fun t ht => by rw [hf] at ht; cases ht), hf]
    rfl

end Sys2Proof.Machine
end

section
/-! PC after a successful step, and the two `POP`s that move the stack pointer or jump (spec/40_step_cycle.md R80,
spec/42_stack.md R88, R89): the obligations O32, O36 and O37. -/

namespace Sys2Proof.Machine

/-- Settles O32: only `POP PC` and a handler write PC after ADVANCE. -/
theorem successfulStepAdvancesPcByTwo : Obligations.SuccessfulStepAdvancesPcByTwo := by
  intro s t h
  cases stepOutcome_of_step_eq h with
  | nop w hw hop => exact ⟨w, hw, fun _ _ => by simp, fun h2 => absurd (hop.symm.trans h2) (by decide)⟩
  | push w hw hop => exact ⟨w, hw, fun _ _ => by simp, fun h2 => absurd (hop.symm.trans h2) (by decide)⟩
  | adds w hw hop => exact ⟨w, hw, fun _ _ => by simp, fun h2 => absurd (hop.symm.trans h2) (by decide)⟩
  | signal w hw hop =>
    exact ⟨w, hw, fun h5 => absurd hop h5, fun h2 => absurd (hop.symm.trans h2) (by decide)⟩
  | pop w hw hop r hr v h2 hin hv =>
    refine ⟨w, hw, fun _ hnot => ?_, fun _ h5 => ?_⟩
    · have hne : .pc ≠ r := by rintro rfl; exact hnot ⟨hop, hr⟩
      simp [hne]
    · cases field_injective (q := .pc) (hr.symm.trans h5)
      rw [hv, get_set_self]

/-- A step of `POP` that reads a cell. -/
theorem step_of_pop_of_read2 {s : State} {w v : Word} {r : Register} (hw : s.fetches w) (hop : opField w = 0x02)
    (hr : regField w = r.field) (h2 : 2 ≤ (s.get .sp).toNat) (hv : s.mem.read2 ((s.get .sp).toNat - 2) = some v) :
    step s = .next ((s.advanced.set .sp (s.get .sp - 2)).set r v) := by
  have hin := (read2_eq_some_iff.1 hv).1
  exact step_eq_of_stepOutcome (.pop w hw hop r hr v h2 (by omega) hv)

/-- Settles O36: the write of PC replaces the advanced one; where no word lies at the new PC, the next FETCH fails. -/
theorem popPcJumpsToThePoppedValue : Obligations.PopPcJumpsToThePoppedValue := by
  intro s w v hw hop hr h2 hv
  refine ⟨_, step_of_pop_of_read2 (r := .pc) hw hop hr h2 hv, ?_, fun hend => ?_⟩
  · rw [State.advanced, set_set_of_ne s .pc .sp _ _ (by decide), set_set_self]
  · simpa using step_of_size_le_pc (s := (s.advanced.set .sp (s.get .sp - 2)).set .pc v) (by simpa using hend)

/-- Settles O37: the write of the target comes after the decrement and replaces it. -/
theorem popSpRelocatesTheStack : Obligations.PopSpRelocatesTheStack := by
  intro s w v hw hop hr h2 hv
  rw [step_of_pop_of_read2 (r := .sp) hw hop hr h2 hv, set_set_self]

end Sys2Proof.Machine
end

section
/-! The state a step leaves, after `Ok` and after a fault alike, by what was written since ADVANCE; and what every step
keeps: MEM_SIZE, the canonical form, straight-line code, and FLAGS, halt flag and signal table outside the instructions
that may change them. The obligations O50, O52, O53, O48 and O49. -/

namespace Sys2Proof.Machine

/-- `StepLeaves s t`: a step from `s` may leave `t`. One constructor per set of writes; `advanced` stands for every step
that writes nothing after ADVANCE. -/
inductive StepLeaves (s : State) : State → Prop where
  | same : StepLeaves s s
  | advanced (w : Word) (hw : s.fetches w) : StepLeaves s s.advanced
  | firstPop (h2 : 2 ≤ (s.get .sp).toNat) (w : Word) (hw : s.fetches w) :
      StepLeaves s (s.advanced.set .sp (s.get .sp - 2))
  | push (w : Word) (hw : s.fetches w) (hop : opField w = 0x01) (v : Word) (m : Memory)
      (hm : s.mem.write2 (s.get .sp).toNat v = some m) :
      StepLeaves s ((s.advanced.withMem m).set .sp (s.get .sp + 2))
  | pop (w : Word) (hw : s.fetches w) (hop : opField w = 0x02) (r : Register) (hr : regField w = r.field) (v : Word)
      (h2 : 2 ≤ (s.get .sp).toNat) : StepLeaves s ((s.advanced.set .sp (s.get .sp - 2)).set r v)
  | adds (w : Word) (hw : s.fetches w) (hop : opField w = 0x03) (v : Word) (m : Memory) (h4 : 4 ≤ (s.get .sp).toNat)
      (hm : s.mem.write2 ((s.get .sp).toNat - 4) v = some m) :
      StepLeaves s ((s.advanced.withMem m).set .sp (s.get .sp - 2))
  | handler (w : Word) (hw : s.fetches w) (hop : opField w = 0x05) (h : Handler)
      (hh : s.handler (argField w) = some h) : StepLeaves s (callHandler h s.advanced).1

/-- Every step leaves one of these states. -/
theorem stepLeaves_of_stateOf {s t : State} (h : stateOf (step s) = some t) : StepLeaves s t := by
  generalize ho : step s = o at h
  cases stepOutcome_of_step_eq ho <;> cases h
  case fetchFault => exact .same
  case addsSecondUnderflow w hw _ h2 _ _ => exact .firstPop h2 w hw
  case push w hw hop m _ hm => exact .push w hw hop _ m hm
  case pop w hw hop r hr v h2 _ _ => exact .pop w hw hop r hr v h2
  case adds w hw hop a b m h4 _ _ _ hm => exact .adds w hw hop _ m h4 hm
  case signal w hw hop g hh hc =>
    have hleft := StepLeaves.handler w hw hop g hh
    rwa [hc] at hleft
  case handlerError w hw hop g u _ hh hc =>
    have hleft := StepLeaves.handler w hw hop g hh
    rwa [hc] at hleft
  all_goals exact .advanced _ ‹s.fetches _›

section
variable {s : State}

/-- No handler changes MEM_SIZE (R22). -/
theorem callHandler_mem_size (h : Handler) (s : State) : (callHandler h s).1.mem.size = s.mem.size :=
  callHandler_induction (P := fun u => u.mem.size = s.mem.size)
    (set := fun u r v hu => by rwa [set_mem])
    (write := fun u a v m hu hm => (write1_size hm).trans hu)
    (halt := fun _ _ hu => hu) (define := fun _ _ _ hu => hu) (drop := fun _ _ hu => hu) (count := fun _ hu => hu)
    h s rfl

/-- A register write keeps the canonical form. -/
theorem set_wf (hs : s.wf) (r : Register) (v : Word) : (s.set r v).wf :=
  ⟨by rw [set_mem]; exact hs.1, by rw [set_sig]; exact hs.2⟩

/-- Another memory in canonical form keeps the state's canonical form. -/
theorem withMem_wf {m : Memory} (hs : s.wf) (hm : m.wf) : (s.withMem m).wf :=
  ⟨hm, hs.2⟩

/-- Every handler keeps the canonical form. -/
theorem callHandler_wf (h : Handler) (hs : s.wf) : (callHandler h s).1.wf :=
  callHandler_induction (P := State.wf)
    (set := fun _ r v hu => set_wf hu r v)
    (write := fun _ _ _ _ hu hm => withMem_wf hu (write1_wf hu.1 hm))
    (halt := fun _ _ hu => hu)
    (define := fun _ _ _ hu => ⟨hu.1, defineHandler_tableWf hu.2⟩)
    (drop := fun _ _ hu => ⟨hu.1, dropHandler_tableWf hu.2⟩)
    (count := fun _ hu => hu)
    h s hs

/-- A word that lies inside a memory of fewer than 65536 bytes is followed by its address plus 2, without wrapping. -/
theorem add_two_toNat {v : Word} (h : v.toNat + 2 < 65536) : (v + 2).toNat = v.toNat + 2 := by
  bv_omega

/-- PC after ADVANCE, in a memory of fewer than 65536 bytes (R72). -/
theorem pc_add_two_toNat {w : Word} (hsize : s.mem.size < 65536) (hw : s.fetches w) :
    (s.get .pc + 2).toNat = (s.get .pc).toNat + 2 := by
  have hin := (read2_eq_some_iff.1 hw).1
  exact add_two_toNat (by omega)

end

/-- Settles O50: a store keeps the size of the memory it writes, and so does every handler. -/
theorem stepKeepsMemorySize : Obligations.StepKeepsMemorySize := by
  intro s t h
  cases stepLeaves_of_stateOf h with
  | same => rfl
  | advanced | firstPop | pop => simp only [set_mem]
  | push w hw hop v m hm => simpa using write2_size hm
  | adds w hw hop v m h4 hm => simpa using write2_size hm
  | handler w hw hop g hh => simpa using callHandler_mem_size g s.advanced

/-- Settles O52: register writes do not touch what the canonical form speaks of, and stores and handlers keep it. -/
theorem stepKeepsWellFormed : Obligations.StepKeepsWellFormed := by
  intro s t hs h
  have hadv : s.advanced.wf := set_wf hs _ _
  cases stepLeaves_of_stateOf h with
  | same => exact hs
  | advanced => exact hadv
  | firstPop => exact set_wf hadv _ _
  | push w hw hop v m hm => exact set_wf (withMem_wf hadv (write2_wf hs.1 hm)) _ _
  | pop => exact set_wf (set_wf hadv _ _) _ _
  | adds w hw hop v m h4 hm => exact set_wf (withMem_wf hadv (write2_wf hs.1 hm)) _ _
  | handler w hw hop g hh => exact callHandler_wf g hadv

/-- Straight-line code keeps SP at most PC: only `PUSH` moves SP up, by as much as ADVANCE moves PC (R125). -/
theorem sp_le_pc_of_stepLeaves {s t : State} (hsize : s.mem.size < 65536)
    (hsp : (s.get .sp).toNat ≤ (s.get .pc).toNat) (h : StepLeaves s t)
    (hpop : ∀ w, s.fetches w → ¬(opField w = 0x02 ∧ (regField w = 4 ∨ regField w = 5)))
    (hsig : ∀ w, s.fetches w → opField w = 0x05 → t.get .sp = s.get .sp ∧ t.get .pc = s.get .pc + 2) :
    (t.get .sp).toNat ≤ (t.get .pc).toNat := by
  cases h with
  | same => exact hsp
  | advanced w hw =>
    have hpc := pc_add_two_toNat hsize hw
    have hle : (s.get .sp).toNat ≤ (s.get .pc + 2).toNat := by omega
    simpa using hle
  | firstPop h2 w hw =>
    have hpc := pc_add_two_toNat hsize hw
    have hsub := sub_two_toNat h2
    have hle : (s.get .sp - 2).toNat ≤ (s.get .pc + 2).toNat := by omega
    simpa using hle
  | push w hw hop v m hm =>
    have hpc := pc_add_two_toNat hsize hw
    have hin := (write2_eq_some_iff.1 hm).1
    have hadd : (s.get .sp + 2).toNat = _ := add_two_toNat (by omega)
    have hle : (s.get .sp + 2).toNat ≤ (s.get .pc + 2).toNat := by omega
    simpa using hle
  | pop w hw hop r hr v h2 =>
    have hpc := pc_add_two_toNat hsize hw
    have hsub := sub_two_toNat h2
    have hne_sp : .sp ≠ r := by rintro rfl; exact hpop w hw ⟨hop, .inl hr⟩
    have hne_pc : .pc ≠ r := by rintro rfl; exact hpop w hw ⟨hop, .inr hr⟩
    have hle : (s.get .sp - 2).toNat ≤ (s.get .pc + 2).toNat := by omega
    simpa [hne_sp, hne_pc] using hle
  | adds w hw hop v m h4 hm =>
    have hpc := pc_add_two_toNat hsize hw
    have hsub : (s.get .sp - 2).toNat = _ := sub_two_toNat (by omega)
    have hle : (s.get .sp - 2).toNat ≤ (s.get .pc + 2).toNat := by omega
    simpa using hle
  | handler w hw hop g hh =>
    have hpc := pc_add_two_toNat hsize hw
    obtain ⟨hsp', hpc'⟩ := hsig w hw hop
    rw [hsp', hpc']
    omega

/-- With SP at most PC, what a step other than `SIG` stores lies below the next instruction (R125). -/
theorem read1_of_stepLeaves {s t : State} (hs : s.wf) (hsp : (s.get .sp).toNat ≤ (s.get .pc).toNat)
    (h : StepLeaves s t) (hsig : ∀ w, s.fetches w → opField w ≠ 0x05) {a : Nat} (ha : (s.get .pc).toNat + 2 ≤ a) :
    t.mem.read1 a = s.mem.read1 a := by
  cases h with
  | same => rfl
  | advanced | firstPop | pop => simp only [set_mem]
  | push w hw hop v m hm => simpa using read1_write2_of_ne hs.1 hm (by omega) (by omega)
  | adds w hw hop v m h4 hm => simpa using read1_write2_of_ne hs.1 hm (by omega) (by omega)
  | handler w hw hop => exact absurd hop (hsig w hw)

/-- Settles O53: the order of SP and PC, and with it that no store reaches the code ahead. -/
theorem straightLineCodeIsNeverOverwritten : Obligations.StraightLineCodeIsNeverOverwritten := by
  intro s t hsize hsp h hpop hsig
  have hleft := stepLeaves_of_stateOf h
  exact ⟨sp_le_pc_of_stepLeaves hsize hsp hleft hpop hsig,
    fun hs hnosig _ => read1_of_stepLeaves hs hsp hleft hnosig⟩

/-- Settles O48: of the registers written, only a `POP` target and a handler's can be FLAGS. -/
theorem flagsChangesOnlyByPopOrSignal : Obligations.FlagsChangesOnlyByPopOrSignal := by
  intro s t h hflags
  cases stepLeaves_of_stateOf h with
  | same => exact absurd rfl hflags
  | advanced | firstPop | push | adds => exact absurd (by simp) hflags
  | pop w hw hop r hr =>
    refine ⟨w, hw, .inl ⟨hop, ?_⟩⟩
    by_cases hne : .flags = r
    · rw [hr, ← hne, Register.field]
    · exact absurd (by simp [hne]) hflags
  | handler w hw hop => exact ⟨w, hw, .inr hop⟩

/-- Settles O49: what a step writes itself is registers and memory; the rest is left to a handler. -/
theorem haltAndTableChangeOnlyBySignal : Obligations.HaltAndTableChangeOnlyBySignal := by
  intro s t h hchange
  cases stepLeaves_of_stateOf h with
  | same | advanced | firstPop | push | pop | adds => simp at hchange
  | handler w hw hop g hh => exact ⟨w, hw, hop, by simp [hh]⟩

end Sys2Proof.Machine
end

section
/-! EXECUTE of each instruction where it succeeds: its whole effect and its frame (spec/42_stack.md, 43_register_add.md,
44_signal.md), a pushed literal run as code (spec/70_reset_and_hazards.md R126), and the obligations O34, O16, O35, O38,
O39, O40, O41, O42, O45, O46 and O47. -/

namespace Sys2Proof

/-- A literal as a stored word: the byte itself, then 0 (spec/20_memory.md R47). -/
theorem literalValue_eq_wordOfBytes (l : Byte) : Machine.literalValue l = wordOfBytes l 0x00 := by
  refine eq_wordOfBytes_iff.2 ?_
  simp only [Machine.literalValue, BitVec.toNat_setWidth, BitVec.ofNat_eq_ofNat, BitVec.toNat_ofNat]
  omega

@[simp] theorem wordLo_literalValue (l : Byte) : wordLo (Machine.literalValue l) = l := by
  rw [literalValue_eq_wordOfBytes, wordLo_wordOfBytes]

@[simp] theorem wordHi_literalValue (l : Byte) : wordHi (Machine.literalValue l) = 0x00 := by
  rw [literalValue_eq_wordOfBytes, wordHi_wordOfBytes]

/-- A literal decoded as an instruction: the one whose operator byte it is, with operand 0 (R126). -/
theorem decode_literalValue (l : Byte) :
    decode (Machine.literalValue l) =
      if l = 0 then .ok .nop else if l = 1 then .ok (.push 0) else if l = 2 then .ok (.pop .a)
      else if l = 3 then .ok .adds else if l = 5 then .ok (.sig 0) else .error (.unknownOperator l) := by
  by_cases h2 : l = 2
  · subst h2; rfl
  · simp only [decode, wordLo_literalValue, wordHi_literalValue, if_neg h2]

end Sys2Proof

namespace Sys2Proof.Machine

section
variable {s t : State} {v : Word} {m : Memory} {i : Instr}

/-- SP - 4 as a number, where it does not underflow. -/
theorem sub_four_toNat (h : 4 ≤ v.toNat) : (v - 4).toNat = v.toNat - 4 := by
  bv_omega

/-- A cell inside memory can be read (R33). -/
theorem exists_read2 {x : Nat} (h : x + 1 < m.size) : ∃ v, m.read2 x = some v :=
  ⟨_, read2_eq_some_iff.2 ⟨h, rfl⟩⟩

/-- A cell inside memory can be written, with any value (R34). -/
theorem exists_write2 {x : Nat} (h : x + 1 < m.size) (v : Word) : ∃ m', m.write2 x v = some m' :=
  ⟨_, write2_eq_some_iff.2 ⟨h, rfl⟩⟩

/-- `ExecLeaves i s t`: an EXECUTE phase of `i`, not a `SIG`, that succeeds takes `s` to `t`. -/
inductive ExecLeaves : Instr → State → State → Prop where
  | nop (s : State) : ExecLeaves .nop s s
  | push (l : Byte) (s : State) (m : Memory) (hm : s.mem.write2 (s.get .sp).toNat (literalValue l) = some m) :
      ExecLeaves (.push l) s ((s.withMem m).set .sp (s.get .sp + 2))
  | pop (r : Register) (s : State) (v : Word) : ExecLeaves (.pop r) s ((s.set .sp (s.get .sp - 2)).set r v)
  | adds (s : State) (v : Word) (m : Memory) (h4 : 4 ≤ (s.get .sp).toNat)
      (hm : s.mem.write2 ((s.get .sp).toNat - 4) v = some m) :
      ExecLeaves .adds s ((s.withMem m).set .sp (s.get .sp - 2))
  | addr (dst src : Register) (s : State) : ExecLeaves (.addr dst src) s (s.set dst (s.get dst + s.get src))

/-- EXECUTE of `ADDR` adds into the destination (R91). -/
theorem exec_addr (dst src : Register) (s : State) :
    exec (.addr dst src) s = .next (s.set dst (s.get dst + s.get src)) := rfl

/-- Every successful EXECUTE phase but `SIG`'s is one of these. -/
theorem execLeaves_of_exec (hsig : ∀ c, i ≠ .sig c) (h : exec i s = .next t) : ExecLeaves i s t := by
  cases i with
  | nop => cases h; exact .nop s
  | push l =>
    rcases execPush_cases l s with ⟨-, m, hm, e⟩ | ⟨-, e⟩ <;> rw [h] at e <;> cases e
    exact .push l s m hm
  | pop r =>
    rcases execPop_cases r s with ⟨-, e⟩ | ⟨-, -, e⟩ | ⟨-, -, v, -, e⟩ <;> rw [h] at e <;> cases e
    exact .pop r s v
  | adds =>
    rcases execAdds_cases s with ⟨-, e⟩ | ⟨-, -, e⟩ | ⟨-, -, -, e⟩ | ⟨h4, -, a, b, m, -, -, hm, e⟩ <;>
      rw [h] at e <;> cases e
    exact .adds s _ m h4 hm
  | addr dst src => cases h; exact .addr dst src s
  | sig c => exact absurd rfl (hsig c)

/-- What a store in the cell at SP or below it leaves of the state, once SP has moved (R86, R90). -/
theorem withMem_set_sp_frame (s : State) (m : Memory) (v : Word) :
    ((s.withMem m).set .sp v).get .sp = v ∧ (∀ r, r ≠ .sp → ((s.withMem m).set .sp v).get r = s.get r) ∧
      ((s.withMem m).set .sp v).halt = s.halt ∧ ((s.withMem m).set .sp v).sig = s.sig ∧
      ((s.withMem m).set .sp v).hostCalls = s.hostCalls :=
  ⟨by simp, fun r hr => by simp [hr], by simp, by simp, by simp⟩

/-- A write of a register leaves everything but that register (R12). -/
theorem set_frame (s : State) (r : Register) (v : Word) :
    (∀ q, q ≠ r → (s.set r v).get q = s.get q) ∧ (s.set r v).mem = s.mem ∧ (s.set r v).halt = s.halt ∧
      (s.set r v).sig = s.sig ∧ (s.set r v).hostCalls = s.hostCalls :=
  ⟨fun q hq => get_set_of_ne s r q v hq, set_mem .., set_halt .., set_sig .., set_hostCalls ..⟩

/-- Inserting twice at one key keeps the second value. -/
theorem insertAt_insertAt_self {α : Type} (k : Nat) (x y : α) (l : List (Nat × α)) :
    insertAt k x (insertAt k y l) = insertAt k x l := by
  induction l with
  | nil => simp [insertAt]
  | cons p rest ih =>
    obtain ⟨j, z⟩ := p
    rcases Nat.lt_trichotomy k j with h | rfl | h
    · simp [insertAt, h, Nat.ne_of_lt h]
    · simp [insertAt]
    · simp [insertAt, Nat.ne_of_gt h, Nat.not_lt_of_gt h, ih]

end

/-- Settles O34: the store succeeds because the cell lies inside memory, and its bytes are the literal's. -/
theorem pushStoresZeroExtendedLiteral : Obligations.PushStoresZeroExtendedLiteral := by
  intro s l hs hin
  obtain ⟨m, hm⟩ := exists_write2 hin (literalValue l)
  refine ⟨_, exec_push_of_write2 hm, ?_, ?_, fun a ha => ?_, ?_, withMem_set_sp_frame s _ _⟩ <;>
    rw [set_mem, withMem_mem]
  · rw [read1_write2_lo hs.1 hm, wordLo_literalValue]
  · rw [read1_write2_hi hs.1 hm, wordHi_literalValue]
  · obtain ⟨hlo, hhi⟩ := not_or.1 ha
    exact read1_write2_of_ne hs.1 hm hlo hhi
  · exact write2_size hm

/-- Settles O16: the fetch reads the cell that the store wrote. -/
theorem pushedLiteralExecutesAsWritten : Obligations.PushedLiteralExecutesAsWritten := by
  intro s t l hs h
  refine ⟨?_, decode_literalValue l⟩
  cases execLeaves_of_exec (by simp) h with
  | push l s m hm =>
    have hcell : m.read2 (s.get .sp).toNat = some (l.setWidth 16) := read2_write2 hs.1 hm
    simpa [State.fetches] using hcell

/-- Settles O35: the cell is inside memory, so the pop reads it; the target is written last. -/
theorem popLoadsTheTarget : Obligations.PopLoadsTheTarget := by
  intro s r h2 hin
  obtain ⟨v, hv⟩ : ∃ v, s.mem.read2 ((s.get .sp).toNat - 2) = some v := exists_read2 (by omega)
  obtain ⟨-, lo, hi, hlo, hhi, hnum⟩ := (halfwordReadIsTwoBytes _ _ _).1 hv
  have hsucc : (s.get .sp).toNat - 2 + 1 = (s.get .sp).toNat - 1 := by omega
  obtain ⟨hregs, hmem, hhalt, hsig, hcalls⟩ := set_frame (s.set .sp (s.get .sp - 2)) r v
  refine ⟨_, lo, hi, exec_pop_of_read2 h2 hv, hlo, hsucc ▸ hhi, by rwa [get_set_self], fun hr => ?_,
    fun q hq hsp => ?_, by rw [hmem, set_mem], by rw [hhalt, set_halt], by rw [hsig, set_sig],
    by rw [hcalls, set_hostCalls]⟩
  · rw [hregs _ hr.symm, get_set_self]
  · rw [hregs q hq, get_set_of_ne _ _ _ _ hsp]

/-- Settles O38: where SP + 2 did not wrap, the pop reads the cell just stored; where it wrapped, SP is 0. -/
theorem popAfterPushGivesTheValueBack : Obligations.PopAfterPushGivesTheValueBack := by
  intro s t v hs h
  rcases push16_cases v s with ⟨hin, m, hm, e⟩ | ⟨-, e⟩ <;> rw [h] at e <;> cases e
  have hmax : s.mem.size ≤ 65536 := hs.1.1
  refine ⟨fun hne => ?_, fun heq => ?_⟩
  · have hnum : (s.get .sp).toNat ≠ 0xFFFE := fun e => hne (BitVec.eq_of_toNat_eq e)
    have hadd : (s.get .sp + 2).toNat = (s.get .sp).toNat + 2 := add_two_toNat (by omega)
    have hread : m.read2 ((s.get .sp + 2).toNat - 2) = some v := by
      rw [hadd, Nat.add_sub_cancel]
      exact read2_write2 hs.1 hm
    have hback : ((s.withMem m).set .sp (s.get .sp)) = s.withMem m := by
      rw [← withMem_get s .sp m, set_get_self]
    rw [pop16_of_read2 (v := v) (by rw [get_set_self, hadd]; omega) (by rwa [get_set_self, set_mem, withMem_mem]),
      get_set_self, set_set_self, BitVec.add_sub_cancel, set_mem, withMem_mem, hback]
  · have hzero : s.get .sp + 2 = 0 := by rw [heq]; rfl
    rw [pop16_of_lt_two (by rw [get_set_self, hzero]; decide), get_set_self, hzero]

/-- Settles O39: both reads and the store lie inside memory, and the store leaves the upper cell alone. -/
theorem addStackReplacesTwoCellsByTheirSum : Obligations.AddStackReplacesTwoCellsByTheirSum := by
  intro s hs h4 hin
  obtain ⟨a, ha⟩ : ∃ a, s.mem.read2 ((s.get .sp).toNat - 2) = some a := exists_read2 (by omega)
  obtain ⟨b, hb⟩ : ∃ b, s.mem.read2 ((s.get .sp).toNat - 4) = some b := exists_read2 (by omega)
  obtain ⟨m, hm⟩ : ∃ m, s.mem.write2 ((s.get .sp).toNat - 4) (a + b) = some m := exists_write2 (by omega) _
  refine ⟨_, a, b, a + b, exec_adds_of_read2 h4 ha hb hm, ha, hb, ?_, BitVec.toNat_add _ _, ?_, fun x hx => ?_, ?_,
    withMem_set_sp_frame s _ _⟩ <;> rw [set_mem, withMem_mem]
  · exact read2_write2 hs.1 hm
  · rw [read2_write2_of_disjoint hs.1 hm (by omega), ha]
  · rw [inCell, sub_four_toNat h4, not_or] at hx
    exact read1_write2_of_ne hs.1 hm hx.1 hx.2
  · exact write2_size hm

/-- Settles O40: one register write, of the sum of both registers as they were. -/
theorem registerAddWrapsIntoDestination : Obligations.RegisterAddWrapsIntoDestination :=
  fun s dst src => ⟨_, exec_addr dst src s, by rw [get_set_self, BitVec.toNat_add], set_frame s dst _⟩

/-- Settles O41: a handler's `Ok` is the step's. -/
theorem signalRunsTheRegisteredHandler : Obligations.SignalRunsTheRegisteredHandler := by
  intro s t c h hc hcall
  rw [exec_sig_of_handler_eq_some hc, hcall, signalResult]

/-- Settles O42: the step of `SIG` is the handler's call on ADVANCE's state; a host handler is its free value. -/
theorem handlerReceivesTheAdvancedMachine : Obligations.HandlerReceivesTheAdvancedMachine := by
  refine ⟨fun s w h hw hop hc => ?_, fun _ _ => rfl⟩
  calc step s
      _ = exec (.sig (argField w)) s.advanced := step_of_opField_05 hw hop
      _ = signalResult (argField w) (callHandler h s.advanced) := exec_sig_of_handler_eq_some (by simpa using hc)

/-- Settles O45: a registration is one insertion in the table. -/
theorem lastHandlerRegistrationWins : Obligations.LastHandlerRegistrationWins := by
  refine fun s c h => ⟨?_, fun c' hc => ?_, fun h' => ?_, fun r => defineHandler_get r, rfl, rfl, rfl⟩
  · rw [handler_defineHandler, if_pos rfl]
  · rw [handler_defineHandler, if_neg hc]
  · simp only [State.defineHandler, withSig_sig, insertAt_insertAt_self]
    rfl

/-- Settles O46: the registers each instruction writes, read off `ExecLeaves`. -/
theorem instructionsChangeOnlyTheirRegisters : Obligations.InstructionsChangeOnlyTheirRegisters := by
  intro i s t hsig h
  cases execLeaves_of_exec hsig h with
  | nop => exact ⟨fun r hr => absurd rfl hr, rfl, rfl, rfl, rfl⟩
  | push l s m hm =>
    obtain ⟨-, hregs, hhalt, hsig, hcalls⟩ := withMem_set_sp_frame s m (s.get .sp + 2)
    refine ⟨fun r hr => .inl ⟨?_, .inr (.inl ⟨l, rfl⟩)⟩, hhalt, hsig, hcalls, by simpa using write2_size hm⟩
    exact by_contra fun hsp => hr (hregs r hsp)
  | pop q s v =>
    refine ⟨fun r hr => ?_, by simp, by simp, by simp, by simp⟩
    by_cases hsp : r = .sp
    · exact .inl ⟨hsp, .inr (.inr ⟨q, rfl⟩)⟩
    · by_cases hq : r = q
      · exact .inr (.inl (by rw [hq]))
      · exact absurd (by simp [hsp, hq]) hr
  | adds s v m h4 hm =>
    obtain ⟨-, hregs, hhalt, hsig, hcalls⟩ := withMem_set_sp_frame s m (s.get .sp - 2)
    refine ⟨fun r hr => .inl ⟨?_, .inl rfl⟩, hhalt, hsig, hcalls, by simpa using write2_size hm⟩
    exact by_contra fun hsp => hr (hregs r hsp)
  | addr dst src s =>
    refine ⟨fun r hr => ?_, by simp, by simp, by simp, by simp⟩
    by_cases hdst : r = dst
    · exact .inr (.inr ⟨src, by rw [hdst]⟩)
    · exact absurd (by simp [hdst]) hr

/-- Settles O47: the cell each instruction stores to, read off `ExecLeaves`. -/
theorem instructionsChangeOnlyTheirCell : Obligations.InstructionsChangeOnlyTheirCell := by
  intro i s t hs hsig h a hpush hadds
  cases execLeaves_of_exec hsig h with
  | nop => rfl
  | pop | addr => simp only [set_mem]
  | push l s m hm =>
    obtain ⟨hlo, hhi⟩ := not_or.1 (not_and.1 hpush ⟨l, rfl⟩)
    simpa using read1_write2_of_ne hs.1 hm hlo hhi
  | adds s v m h4 hm =>
    have hcell := not_and.1 hadds rfl
    rw [inCell, sub_four_toNat h4, not_or] at hcell
    simpa using read1_write2_of_ne hs.1 hm hcell.1 hcell.2

end Sys2Proof.Machine
end

section
/-! The register file, construction and boot (spec/10_state.md sections 2 and 8, spec/70_reset_and_hazards.md section 2):
the obligations O2, O1, O51 and O56. -/

namespace Sys2Proof.Machine

section
variable {s t : State} {n a : Nat} {bytes : List Byte} {handlers : List (Byte × Handler)}

@[simp] theorem construct_get (n : Nat) (r : Register) : (construct n).get r = 0 := by cases r <;> rfl
@[simp] theorem construct_halt (n : Nat) : (construct n).halt = false := rfl
@[simp] theorem construct_handler (n : Nat) (c : Byte) : (construct n).handler c = none := rfl
@[simp] theorem construct_size (n : Nat) : (construct n).mem.size = n := rfl

/-- Every byte of a constructed memory reads as 0 (R26, decision D7). -/
theorem construct_read1 (h : a < n) : (construct n).mem.read1 a = some 0x00 :=
  read1_eq_some_iff.2 ⟨h, rfl⟩

/-- A constructed state lists nothing, so it is in canonical form. -/
theorem construct_wf (h : n ≤ 65536) : (construct n).wf :=
  ⟨⟨h, .nil, nofun⟩, .nil, nofun⟩

/-- The host's load fails exactly where the bytes do not fit (R35). -/
theorem state_load_eq_none_iff : s.load bytes a = none ↔ s.mem.size < a + bytes.length := by
  rw [State.load, Option.map_eq_none_iff, load_eq_none_iff]

/-- The host's load that fits changes memory only (R35). -/
theorem exists_state_load (h : a + bytes.length ≤ s.mem.size) :
    ∃ m, s.mem.load bytes a = some m ∧ s.load bytes a = some (s.withMem m) := by
  have hm : s.mem.load bytes a = some _ := load_eq_some_iff.2 ⟨h, rfl⟩
  exact ⟨_, hm, by rw [State.load, hm, Option.map_some]⟩

/-- Memory after the image was loaded into a constructed Machine: the image from address 0, then 0 (R122). -/
theorem read1_of_construct_load {m : Memory} (hn : n ≤ 65536)
    (hm : (construct n).mem.load bytes Config.imageBase = some m) (ha : a < n) :
    m.read1 a = some ((bytes[a]?).getD 0x00) := by
  rw [read1_load (construct_wf hn).1 hm, Config.imageBase, Nat.zero_add, Nat.sub_zero]
  by_cases hin : a < bytes.length
  · rw [if_pos ⟨Nat.zero_le a, hin⟩, List.getElem?_eq_getElem hin, Option.getD_some]
  · rw [if_neg fun h => hin h.2, construct_read1 ha, List.getElem?_eq_none (Nat.le_of_not_lt hin), Option.getD_none]

/-- Registrations write the signal table only (R95). -/
theorem defineHandlers_frame (handlers : List (Byte × Handler)) (s : State) :
    (∀ r, (s.defineHandlers handlers).get r = s.get r) ∧ (s.defineHandlers handlers).mem = s.mem ∧
      (s.defineHandlers handlers).halt = s.halt := by
  induction handlers generalizing s with
  | nil => exact ⟨fun _ => rfl, rfl, rfl⟩
  | cons e rest ih =>
    obtain ⟨hregs, hmem, hhalt⟩ := ih (s.defineHandler e.1 e.2)
    exact ⟨fun r => (hregs r).trans (defineHandler_get r), hmem, hhalt⟩

/-- Registrations keep the signal table's canonical form. -/
theorem defineHandlers_tableWf (handlers : List (Byte × Handler)) (hs : tableWf s.sig) :
    tableWf (s.defineHandlers handlers).sig := by
  induction handlers generalizing s with
  | nil => exact hs
  | cons e rest ih => exact ih (defineHandler_tableWf hs)

/-- Under each code stands the handler registered for it last, or the one from before (R95). -/
theorem handler_defineHandlers (handlers : List (Byte × Handler)) (s : State) (c : Byte) :
    (s.defineHandlers handlers).handler c =
      ((handlers.reverse.find? (fun e => e.1 = c)).map (fun e => e.2)).or (s.handler c) := by
  induction handlers generalizing s with
  | nil => rfl
  | cons e rest ih =>
    rw [State.defineHandlers, ih, handler_defineHandler, List.reverse_cons, List.find?_append]
    cases rest.reverse.find? (fun e => e.1 = c) with
    | some e' => rfl
    | none =>
      by_cases hc : c = e.1
      · simp [hc]
      · simp [hc, Ne.symm hc]

end

/-- Settles O2: the register file's read after write, and the other fields. -/
theorem registerWriteChangesOneCell : Obligations.RegisterWriteChangesOneCell := by
  intro s r v
  obtain ⟨hregs, hmem, hhalt, hsig, hcalls⟩ := set_frame s r v
  exact ⟨get_set_self s r v, hregs, hmem, hsig, hhalt, hcalls⟩

/-- Settles O1: the fields of a constructed state. -/
theorem constructionLeavesResetValues : Obligations.ConstructionLeavesResetValues :=
  ⟨rfl, fun n => ⟨construct_get n, construct_halt n, construct_handler n, construct_size n,
    fun _ => construct_read1⟩⟩

/-- Settles O51: the reset state is construction with 8192 bytes (O1). -/
theorem constructedStateIsWellFormed : Obligations.ConstructedStateIsWellFormed := by
  obtain ⟨hreset, -⟩ := constructionLeavesResetValues
  exact ⟨hreset ▸ construct_wf (by decide), fun _ => construct_wf⟩

/-- Settles O56: the load writes memory, the registrations write the table, and neither touches the rest. -/
theorem bootGivesTheLaunchState : Obligations.BootGivesTheLaunchState := by
  refine fun n image handlers hn => ⟨fun hlong => ?_, fun hfits => ?_⟩
  · rw [boot, state_load_eq_none_iff.2 (by simpa [Config.imageBase] using hlong), Option.map_none]
  · obtain ⟨m, hm, hload⟩ := exists_state_load (s := construct n) (bytes := image) (a := Config.imageBase)
      (by simpa [Config.imageBase] using hfits)
    obtain ⟨hregs, hmem, hhalt⟩ := defineHandlers_frame handlers ((construct n).withMem m)
    rw [withMem_mem] at hmem
    have hwf := construct_wf hn
    have hhandler := handler_defineHandlers handlers ((construct n).withMem m)
    refine ⟨((construct n).withMem m).defineHandlers handlers, by rw [boot, hload, Option.map_some],
      ⟨by rw [hmem]; exact load_wf hwf.1 hm, defineHandlers_tableWf _ hwf.2⟩, fun r => by rw [hregs, withMem_get, construct_get],
      hhalt, by rw [hmem, load_size hm, construct_size], fun a ha => by rw [hmem, read1_of_construct_load hn hm ha],
      fun c => by rw [hhandler, withMem_handler, construct_handler, Option.or_none]⟩

end Sys2Proof.Machine
end

section
/-! Runs (spec/40_step_cycle.md R79, R81; spec/70_reset_and_hazards.md R129): zero memory, and the default loop. The
obligations O54 and O55. -/

namespace Sys2Proof.Machine

section
variable {s t : State} {k n : Nat}

/-- Every byte of memory reads 0 (R129). -/
def ZeroMemory (s : State) : Prop := ∀ a < s.mem.size, s.mem.read1 a = some 0x00

/-- The state after `k` Nops: PC is `2 * k` more, modulo 65536. -/
def State.advancedBy (s : State) (k : Nat) : State := s.set .pc (s.get .pc + BitVec.ofNat 16 (2 * k))

/-- No Nops leave the state as it is. -/
theorem advancedBy_zero (s : State) : s.advancedBy 0 = s := by
  simp [State.advancedBy]

/-- One Nop before `k` others. -/
theorem advanced_advancedBy (s : State) (k : Nat) : s.advanced.advancedBy k = s.advancedBy (k + 1) := by
  have hsum : s.get .pc + 2 + BitVec.ofNat 16 (2 * k) = s.get .pc + BitVec.ofNat 16 (2 * (k + 1)) := by
    rw [BitVec.add_assoc, Nat.mul_succ, Nat.add_comm, BitVec.ofNat_add]
    rfl
  rw [State.advancedBy, State.advancedBy, get_set_self, set_set_self, hsum]

/-- PC after `k` Nops, as a number. -/
theorem advancedBy_pc_toNat (s : State) (k : Nat) :
    ((s.advancedBy k).get .pc).toNat = ((s.get .pc).toNat + 2 * k) % 65536 := by
  rw [State.advancedBy, get_set_self, BitVec.toNat_add, BitVec.toNat_ofNat, Nat.add_mod_mod]

/-- In zero memory a step whose word lies inside memory is a Nop (R129). -/
theorem step_of_zeroMemory (hz : ZeroMemory s) (hin : (s.get .pc).toNat + 1 < s.mem.size) :
    step s = .next s.advanced := by
  obtain ⟨-, hlo⟩ := read1_eq_some_iff.1 (hz (s.get .pc).toNat (by omega))
  obtain ⟨-, hhi⟩ := read1_eq_some_iff.1 (hz _ hin)
  have hw : s.fetches 0x0000 := read2_eq_some_iff.2 ⟨hin, by rw [hlo, hhi]; rfl⟩
  exact step_of_opField_00 hw rfl

/-- In zero memory `k` steps are `k` Nops, as long as every word on the way lies inside memory (R129). -/
theorem run_of_zeroMemory (hz : ZeroMemory s)
    (hin : ∀ j < k, ((s.advancedBy j).get .pc).toNat + 1 < s.mem.size) :
    Sys2Proof.core.run k s = .next (s.advancedBy k) := by
  induction k generalizing s with
  | zero => rw [run_zero, advancedBy_zero]
  | succ k ih =>
    have hfirst := hin 0 k.succ_pos
    rw [advancedBy_zero] at hfirst
    have hz' : ZeroMemory s.advanced := by rwa [ZeroMemory, set_mem]
    rw [run_succ_of_next k (step_of_zeroMemory hz hfirst), ih hz' fun j hj => ?_, advanced_advancedBy]
    rw [advanced_advancedBy, set_mem]
    exact hin (j + 1) (Nat.succ_lt_succ hj)

/-- After every number of steps below `k` the run from `s` stands in a state with the halt flag clear. -/
def ClearBefore (k : Nat) (s : State) : Prop :=
  ∀ j < k, ∃ u, Sys2Proof.core.run j s = .next u ∧ u.halt = false

/-- A successful step from a state with the flag clear goes before. -/
theorem clearBefore_succ (hs : s.halt = false) (h : step s = .next t) (hk : ClearBefore k t) :
    ClearBefore (k + 1) s := by
  intro j hj
  cases j with
  | zero => exact ⟨s, run_zero s, hs⟩
  | succ j =>
    rw [run_succ_of_next j h]
    exact hk j (Nat.lt_of_succ_lt_succ hj)

/-- Where the flag is clear, it is clear before one step. -/
theorem clearBefore_one (hs : s.halt = false) : ClearBefore 1 s := by
  intro j hj
  obtain rfl : j = 0 := by omega
  exact ⟨s, run_zero s, hs⟩

/-- What the loop's end says of the run that led there (R79, R81, decision D14). -/
def RunEnd.justified (n : Nat) (s : State) : RunEnd → Prop
  | .halted t => t.halt = true ∧ ∃ k ≤ n, Sys2Proof.core.run k s = .next t ∧ ClearBefore k s
  | .aborted f => ∃ k < n, ∃ t, Sys2Proof.core.run k s = .next t ∧ step t = .fault f ∧ ClearBefore (k + 1) s
  | .outOfFuel t => Sys2Proof.core.run n s = .next t ∧ ClearBefore (n + 1) s
  | .refused _ => False

/-- The end of a run from the next state, seen from one step earlier. -/
theorem justified_succ (hs : s.halt = false) (h : step s = .next t) {e : RunEnd} (he : e.justified n t) :
    e.justified (n + 1) s := by
  cases e with
  | halted u =>
    obtain ⟨hu, k, hk, hrun, hclear⟩ := he
    exact ⟨hu, k + 1, Nat.succ_le_succ hk, by rw [run_succ_of_next k h, hrun], clearBefore_succ hs h hclear⟩
  | aborted f =>
    obtain ⟨k, hk, u, hrun, hf, hclear⟩ := he
    exact ⟨k + 1, Nat.succ_lt_succ hk, u, by rw [run_succ_of_next k h, hrun], hf, clearBefore_succ hs h hclear⟩
  | outOfFuel u =>
    obtain ⟨hrun, hclear⟩ := he
    exact ⟨by rw [run_succ_of_next n h, hrun], clearBefore_succ hs h hclear⟩
  | refused r => exact he

/-- The loop's test of a set flag ends it there, whatever the bound (R79). -/
theorem runLoop_of_halt (hs : s.halt = true) : runLoop n s = .halted s := by
  cases n <;> simp [runLoop, hs]

/-- The default loop ends for the reasons its end states (R79, R81). -/
theorem runLoop_justified (n : Nat) (s : State) : (runLoop n s).justified n s := by
  induction n generalizing s with
  | zero =>
    cases hs : s.halt with
    | true =>
      rw [runLoop_of_halt hs]
      exact ⟨hs, 0, Nat.le_refl 0, run_zero s, nofun⟩
    | false =>
      simp only [runLoop, hs]
      exact ⟨run_zero s, clearBefore_one hs⟩
  | succ n ih =>
    cases hs : s.halt with
    | true =>
      rw [runLoop_of_halt hs]
      exact ⟨hs, 0, Nat.zero_le _, run_zero s, nofun⟩
    | false =>
      cases h : step s with
      | next t =>
        simp only [runLoop, hs, h]
        exact justified_succ hs h (ih t)
      | fault f =>
        simp only [runLoop, hs, h]
        exact ⟨0, n.succ_pos, s, run_zero s, h, clearBefore_one hs⟩
      | refused r => exact absurd h (step_ne_refused s r)

end

/-- Settles O54: below the end PC does not wrap past a missing word; with 65536 bytes an even PC stays even, so the word
at it always lies inside memory. -/
theorem zeroMemoryRunsAsNops : Obligations.ZeroMemoryRunsAsNops := by
  refine fun s k hz => ⟨fun hin => ?_, fun hsize hin hend => ?_, fun hsize heven => ?_⟩
  · refine run_of_zeroMemory hz fun j hj => ?_
    have hle := Nat.mod_le ((s.get .pc).toNat + 2 * j) 65536
    rw [advancedBy_pc_toNat]
    omega
  · refine step_of_size_le_pc (s := s.advancedBy k) ?_ |>.trans ?_
    · rw [advancedBy_pc_toNat, State.advancedBy, set_mem, Nat.mod_eq_of_lt (by omega)]
      exact hend
    · rw [State.advancedBy, get_set_self]
  · refine run_of_zeroMemory hz fun j hj => ?_
    rw [advancedBy_pc_toNat]
    omega

/-- Settles O55: `runLoop_justified`, with the states before `k + 1` read as those up to `k`. -/
theorem runLoopEndsHaltedOrAtFirstFault : Obligations.RunLoopEndsHaltedOrAtFirstFault := by
  intro n s
  have hend := runLoop_justified n s
  cases h : runLoop n s with
  | halted t =>
    rw [h] at hend
    exact hend
  | aborted f =>
    rw [h] at hend
    obtain ⟨k, hk, t, hrun, hf, hclear⟩ := hend
    exact ⟨k, hk, t, hrun, hf, fun j hj => hclear j (Nat.lt_succ_of_le hj)⟩
  | outOfFuel t =>
    rw [h] at hend
    obtain ⟨hrun, hclear⟩ := hend
    exact ⟨hrun, fun j hj => hclear j (Nat.lt_succ_of_le hj)⟩
  | refused r =>
    rw [h] at hend
    exact hend

end Sys2Proof.Machine
end

section
/-! A handler is an arbitrary transformer (spec/44_signal.md R94, decisions D15, D21): a script that writes every
register, byte, table entry and the halt flag as they stand in a given Machine. The obligation O43. -/

namespace Sys2Proof.Machine

/-- Write all eight registers as in `t`, then go on. -/
def copyRegs (t : State) (rest : Script) : Script :=
  .setReg .a (t.get .a) <| .setReg .b (t.get .b) <| .setReg .c (t.get .c) <| .setReg .m (t.get .m) <|
    .setReg .sp (t.get .sp) <| .setReg .pc (t.get .pc) <| .setReg .bp (t.get .bp) <|
    .setReg .flags (t.get .flags) rest

/-- Write the bytes below address `n` as in `m`, then go on. -/
def copyBytes (m : Memory) : Nat → Script → Script
  | 0, rest => rest
  | n + 1, rest => .write1 n (m.peek n) (copyBytes m n rest)

/-- Register or remove the entry for code `c` as in `t`, then go on. -/
def copyEntry (t : State) (c : Byte) (rest : Script) : Script :=
  match t.handler c with
  | some h => .define c h rest
  | none => .drop c rest

/-- Register or remove the entries for the codes below `n` as in `t`, then go on. -/
def copyEntries (t : State) : Nat → Script → Script
  | 0, rest => rest
  | n + 1, rest => copyEntry t (BitVec.ofNat 8 n) (copyEntries t n rest)

/-- Return the result. -/
def returning : Option String → Script
  | none => .ok
  | some msg => .fail msg

/-- A handler body that leaves `t` with the result `res`. -/
def copyMachine (t : State) (res : Option String) : Script :=
  copyBytes t.mem t.mem.size <| copyEntries t 256 <| copyRegs t <| .setHalt t.halt <| returning res

section
variable {s t : State} {m : Memory} {n : Nat}

theorem runScript_returning (res : Option String) (s : State) : runScript (returning res) s = (s, res) := by
  cases res <;> rfl

/-- After `copyRegs` the registers are those of `t`, and nothing else has changed. -/
theorem runScript_copyRegs (t : State) (rest : Script) (s : State) :
    ∃ u, runScript (copyRegs t rest) s = runScript rest u ∧ (∀ r, u.get r = t.get r) ∧ u.mem = s.mem ∧
      u.sig = s.sig ∧ u.halt = s.halt ∧ u.hostCalls = s.hostCalls := by
  simp only [copyRegs, runScript]
  exact ⟨_, rfl, fun r => by cases r <;> simp, by simp, by simp, by simp, by simp⟩

/-- After `copyBytes` the bytes below `n` are those of `m`, and nothing else has changed. -/
theorem runScript_copyBytes (m : Memory) (rest : Script) (hs : s.mem.wf) (hn : n ≤ s.mem.size) :
    ∃ m', runScript (copyBytes m n rest) s = runScript rest (s.withMem m') ∧ m'.wf ∧ m'.size = s.mem.size ∧
      ∀ a, m'.peek a = if a < n then m.peek a else s.mem.peek a := by
  induction n generalizing s with
  | zero => exact ⟨s.mem, rfl, hs, rfl, fun a => (if_neg a.not_lt_zero).symm⟩
  | succ n ih =>
    have hw : s.mem.write1 n (m.peek n) = some (s.mem.poke n (m.peek n)) := write1_eq_some_iff.2 ⟨hn, rfl⟩
    obtain ⟨m', hrun, hwf, hsize, hpeek⟩ :=
      ih (s := s.withMem (s.mem.poke n (m.peek n))) (write1_wf hs hw) (Nat.le_of_succ_le hn)
    refine ⟨m', ?_, hwf, hsize, fun a => ?_⟩
    · rw [copyBytes, runScript, hw, Option.getD_some, hrun]
      rfl
    · rw [hpeek, withMem_mem, peek_poke hs]
      rcases Nat.lt_trichotomy a n with h | rfl | h
      · rw [if_pos h, if_pos (by omega)]
      · rw [if_neg (by omega), if_pos rfl, if_pos (by omega)]
      · rw [if_neg (by omega), if_neg (by omega), if_neg (by omega)]

/-- After `copyEntry` the entry for the code is that of `t`, and nothing but the table has changed. -/
theorem runScript_copyEntry (t : State) (c : Byte) (rest : Script) (hs : tableWf s.sig) :
    ∃ g, runScript (copyEntry t c rest) s = runScript rest (s.withSig g) ∧ tableWf g ∧
      ∀ c', (s.withSig g).handler c' = if c' = c then t.handler c' else s.handler c' := by
  cases hc : t.handler c with
  | some h =>
    refine ⟨(s.defineHandler c h).sig, by rw [copyEntry, hc, runScript]; rfl, defineHandler_tableWf hs,
      fun c' => (handler_defineHandler c').trans ?_⟩
    split
    case isTrue e => rw [e, hc]
    case isFalse => rfl
  | none =>
    refine ⟨(s.dropHandler c).sig, by rw [copyEntry, hc, runScript]; rfl, dropHandler_tableWf hs,
      fun c' => (handler_dropHandler hs c').trans ?_⟩
    split
    case isTrue e => rw [e, hc]
    case isFalse => rfl

/-- After `copyEntries` the entries for the codes below `n` are those of `t`, and nothing but the table has changed. -/
theorem runScript_copyEntries (t : State) (rest : Script) (hs : tableWf s.sig) (hn : n ≤ 256) :
    ∃ g, runScript (copyEntries t n rest) s = runScript rest (s.withSig g) ∧ tableWf g ∧
      ∀ c, (s.withSig g).handler c = if c.toNat < n then t.handler c else s.handler c := by
  induction n generalizing s with
  | zero => exact ⟨s.sig, rfl, hs, fun c => (if_neg c.toNat.not_lt_zero).symm⟩
  | succ n ih =>
    obtain ⟨g, hrun, hg, hentry⟩ := runScript_copyEntry t (BitVec.ofNat 8 n) (copyEntries t n rest) hs
    obtain ⟨g', hrun', hg', hentry'⟩ := ih (s := s.withSig g) hg (Nat.le_of_succ_le hn)
    refine ⟨g', by rw [copyEntries, hrun, hrun']; rfl, hg', fun c => (hentry' c).trans ?_⟩
    rw [hentry c]
    have hcode : c = BitVec.ofNat 8 n ↔ c.toNat = n := by
      rw [← BitVec.toNat_inj, BitVec.toNat_ofNat, Nat.mod_eq_of_lt (by omega)]
    simp only [hcode]
    rcases Nat.lt_trichotomy c.toNat n with h | h | h
    · rw [if_pos h, if_pos (by omega)]
    · rw [if_neg (by omega), if_pos h, if_pos (by omega)]
    · rw [if_neg (by omega), if_neg (by omega), if_neg (by omega)]

/-- From any well-formed Machine of the same memory size and counter, `copyMachine t` leaves `t` (R94). -/
theorem runScript_copyMachine (res : Option String) (hs : s.wf) (ht : t.wf) (hsize : t.mem.size = s.mem.size)
    (hcalls : t.hostCalls = s.hostCalls) : runScript (copyMachine t res) s = (t, res) := by
  obtain ⟨m, hbytes, hm, hmsize, hpeek⟩ := runScript_copyBytes (n := t.mem.size) t.mem
    (copyEntries t 256 <| copyRegs t <| .setHalt t.halt <| returning res) hs.1 hsize.le
  obtain ⟨g, hentries, hg, hentry⟩ := runScript_copyEntries (s := s.withMem m) (n := 256) t
    (copyRegs t <| .setHalt t.halt <| returning res) hs.2 (Nat.le_refl 256)
  obtain ⟨u, hregs, hget, hmem, hsig, -, hcount⟩ := runScript_copyRegs t
    (.setHalt t.halt <| returning res) ((s.withMem m).withSig g)
  have hm_eq : m = t.mem := memory_ext hm ht.1 (hmsize.trans hsize.symm) fun a ha =>
    (hpeek a).trans (if_pos (by omega))
  have hg_eq : g = t.sig := table_ext (s := (s.withMem m).withSig g) hg ht.2 fun c =>
    (hentry c).trans (if_pos c.isLt)
  have hfinal : u.withHalt t.halt = t :=
    state_ext (fun r => (withHalt_get u r t.halt).trans (hget r)) (hmem.trans hm_eq) (hsig.trans hg_eq) rfl
      (hcount.trans hcalls.symm)
  rw [copyMachine, hbytes, hentries, hregs, runScript, hfinal, runScript_returning]

end

/-- Settles O43: the body that writes everything as it stands in the target Machine. -/
theorem someHandlerLeavesAnyMachine : Obligations.SomeHandlerLeavesAnyMachine :=
  fun _ t res hs ht hsize hcalls => ⟨copyMachine t res, runScript_copyMachine res hs ht hsize hcalls⟩

end Sys2Proof.Machine
end
